-- ==== Sys2Proof/Word.lean ====
section
/-!
DEFINITION. The bit-vector types of the machine (`10_state.md` R11, `30_encoding.md` R27 to R30).
-/

namespace Sys2Proof

/-- The value of a data register, an unsigned number below `2^24` (R11, R53). The width `DW` is 24, the spec's
decision D1 (entry 14). -/
abbrev Word := BitVec 24

/-- One instruction word, 24 bits (R27). -/
abbrev InstrWord := BitVec 24

/-- The register number `t` of the `DRt` field, bits [15-12] (R29, R30). -/
abbrev RegNum := BitVec 4

/-- The 12-bit immediate field, bits [11-0] (R28, R29). -/
abbrev Imm12 := BitVec 12

/-- The 5-bit shift or rotate amount, bits [4-0] (R30). -/
abbrev Imm5 := BitVec 5

/-- The bank number `x` of `LUIui`, bits [15-14] (R28). -/
abbrev BankNum := BitVec 2

/-- The upper-immediate register, three banks of 12 bits (R13). -/
abbrev Uimm := BitVec 36

/-- The validity bits of the three banks (R14). -/
abbrev UimmValid := BitVec 3

end Sys2Proof
end

