-- ==== Sys2Proof/Config.lean ====
section
/-!
DEFINITION. What the spec leaves to an implementation (`00_scope.md` R4, `92_eei_decisions.md` "Open parameters,
gathered"): the type of each parameter with every value the spec admits, the default of the entry point, and the free
values. The setting the machine takes for each parameter is in `Sys2Proof/Machine/Setting.lean`.
-/

namespace Sys2Proof

/-- `SUB_CARRY`: the polarity of `c` after `SUBui` and `CMPui` (R53, D6). -/
inductive SubCarry where
  | borrow
  | notBorrow
  deriving DecidableEq, Repr

/-- `SHIFT_CARRY`: the carry of a shift or rotate by 1 to 23 (R63, D9); the spec admits one value. -/
inductive ShiftCarry where
  | lastBitOut
  deriving DecidableEq, Repr

/-- `SHIFT0_CARRY`: the carry of a shift or rotate by 0 (R55, D10). -/
inductive Shift0Carry where
  | draw
  | unchanged
  | cleared
  deriving DecidableEq, Repr

/-- `SHIFT_OOR`: an unchecked shift or rotate by 24 to 31 (R56, D11). -/
inductive ShiftOor where
  | draw
  | natural
  deriving DecidableEq, Repr

/-- `UIMM_WINDOW`: what closes the atomic window (R42, D13). -/
inductive UimmWindow where
  | strict
  | sticky
  deriving DecidableEq, Repr

/-- The default of `RESET_PC`: the first word of the program (R4, R19, D24). `RESET_PC` itself is OPEN, and OPEN means
an argument (R4): it is the argument of `State.resetAt`, of `State.startRun`, by which the host supplies it (R82), and
of `Sys2Proof.Safety.AfterReset`. `State.reset` alone, which takes no argument, uses this default (entry 4). -/
def Config.defaultResetPc : Nat := 0

/-- Free one-bit values: the `draw` of R8 for a flag (R55, R56). It is applied to the count of values drawn so
far and has no body, so that no proof can rest on what it gives (entry 7). -/
opaque Config.freeBit : Nat → Bool

/-- Free 24-bit values: the `draw` of R8 for a data register (R56), as `Config.freeBit` (entry 7). -/
opaque Config.freeWord : Nat → Word

end Sys2Proof
end

