-- ==== Sys2Proof/Machine/Setting.lean ====
section
/-!
DEFINITION. The setting the spec takes for each of its parameters (`00_scope.md` R4). They stand in a file of their
own under `Machine/`, so that a setting a chip turns out not to have can be mended in one place.
-/

namespace Sys2Proof.Machine

/-- `SUB_CARRY = borrow` (R4, R53, D6; entry 9). UNVERIFIED. -/
def Setting.subCarry : SubCarry := .borrow

/-- `SHIFT_CARRY = last_bit_out` (R4, R63, D9; entry 10). UNVERIFIED. -/
def Setting.shiftCarry : ShiftCarry := .lastBitOut

/-- `SHIFT0_CARRY = draw` (R4, R55, D10; entry 7). -/
def Setting.shift0Carry : Shift0Carry := .draw

/-- `SHIFT_OOR = draw` (R4, R56, D11; entry 7). -/
def Setting.shiftOor : ShiftOor := .draw

/-- `UIMM_WINDOW = strict` (R4, R42, D13; entry 11). -/
def Setting.uimmWindow : UimmWindow := .strict

end Sys2Proof.Machine
end

