-- ==== Sys2Proof/Machine/Flags.lean ====
section
/-!
DEFINITION. Every flag computation of the class (`41_imm24_alu.md` R52, R53; `42_shift_rotate.md` R63).
-/

namespace Sys2Proof.Machine

/-- `z`: all 24 bits of the result are zero (R52; D4, entry 8). -/
def zeroFlag (result : Word) : Bool := result == 0

/-- `c` of `ADDui`: the sum as a natural number does not fit in 24 bits (R47, R53; D5, entry 8). -/
def addCarry (a b : Word) : Bool := decide (2 ^ 24 ≤ a.toNat + b.toNat)

/-- `c` of `SUBui` and `CMPui` for minuend `a` and subtrahend `b` under a setting of `SUB_CARRY` (R48, R53, R64). -/
def subCarry (setting : SubCarry) (a b : Word) : Bool :=
  match setting with
  | .borrow => a.ult b
  | .notBorrow => !a.ult b

/-- `c` of a left shift or left rotate of `a` by `s` places, `1 <= s <= 23`: the last bit to leave bit 23 (R63). -/
def leftShiftCarry (setting : ShiftCarry) (a : Word) (s : Nat) : Bool :=
  match setting with
  | .lastBitOut => a.getLsbD (24 - s)

/-- `c` of a right shift or right rotate of `a` by `s` places, `1 <= s <= 23`: the last bit to leave bit 0 (R63). -/
def rightShiftCarry (setting : ShiftCarry) (a : Word) (s : Nat) : Bool :=
  match setting with
  | .lastBitOut => a.getLsbD (s - 1)

end Sys2Proof.Machine
end

