-- ==== Sys2Proof/Syntax.lean ====
section
/-!
DEFINITION. The 14 instructions of opclass 0001, one constructor per row of `opcode_table.json`
(`00_scope.md` R1). Operands stand in the order of the uop spelling, source first (`30_encoding.md` R37).
-/

namespace Sys2Proof

/-- An instruction of opclass 0001, "Core ALU (imm/uimm, unsigned flags)" (R1). -/
inductive Instr where
  /-- `LUIui #x, #imm12` (R40). -/
  | luiui (x : BankNum) (imm : Imm12)
  /-- `MOVui #imm12, DRt` (R46). -/
  | movui (imm : Imm12) (t : RegNum)
  /-- `ADDui #imm12, DRt` (R47). -/
  | addui (imm : Imm12) (t : RegNum)
  /-- `SUBui #imm12, DRt` (R48). -/
  | subui (imm : Imm12) (t : RegNum)
  /-- `ANDui #imm12, DRt` (R49). -/
  | andui (imm : Imm12) (t : RegNum)
  /-- `ORui #imm12, DRt` (R50). -/
  | orui (imm : Imm12) (t : RegNum)
  /-- `XORui #imm12, DRt` (R51). -/
  | xorui (imm : Imm12) (t : RegNum)
  /-- `SHLui #imm5, DRt` (R57). -/
  | shlui (amount : Imm5) (t : RegNum)
  /-- `SHLuiv #imm5, DRt`, trap on range (R58). -/
  | shluiv (amount : Imm5) (t : RegNum)
  /-- `ROLui #imm5, DRt` (R59). -/
  | rolui (amount : Imm5) (t : RegNum)
  /-- `SHRui #imm5, DRt` (R60). -/
  | shrui (amount : Imm5) (t : RegNum)
  /-- `SHRuiv #imm5, DRt`, trap on range (R61). -/
  | shruiv (amount : Imm5) (t : RegNum)
  /-- `RORui #imm5, DRt` (R62). -/
  | rorui (amount : Imm5) (t : RegNum)
  /-- `CMPui #imm12, DRt` (R64). -/
  | cmpui (imm : Imm12) (t : RegNum)
  deriving DecidableEq, Repr

end Sys2Proof
end

