-- ==== Sys2Proof/WellFormed.lean ====
section
/-!
DEFINITION. Which instruction terms the encoding admits (`30_encoding.md` R28 to R34). The field types already
bound every operand; the one further check is the bank number of `LUIui`.
-/

namespace Sys2Proof

/-- The instruction is one the spec gives an encoding: `LUIui` names bank 0, 1 or 2, since `x = 3` is a reserved
encoding (R34, R44); every other operand takes every value of its field (R10, R29, R30, R32). -/
def Instr.wellFormed : Instr → Bool
  | .luiui x _ => x != 3#2
  | .movui _ _ => true
  | .addui _ _ => true
  | .subui _ _ => true
  | .andui _ _ => true
  | .orui _ _ => true
  | .xorui _ _ => true
  | .shlui _ _ => true
  | .shluiv _ _ => true
  | .rolui _ _ => true
  | .shrui _ _ => true
  | .shruiv _ _ => true
  | .rorui _ _ => true
  | .cmpui _ _ => true

end Sys2Proof
end

