-- ==== Sys2Proof/Decode.lean ====
section
/-!
DEFINITION. Decoding and encoding of the 24-bit instruction word (`30_encoding.md` R27 to R36), and the opcode
map with its match and mask values (R33).
-/

namespace Sys2Proof

/-- Why a word has no meaning (R34, R35, R74). R74 lists "reserved bits not zero" once; R36 tells the two formats
apart, and so does this type. -/
inductive NoMeaning where
  /-- Bits [23-20] are not `0001`: another opclass, `out_of_scope` (R35). -/
  | otherOpclass
  /-- `LUIui` with bits [13-12] not `00` (R34). -/
  | luiuiReservedBits
  /-- `LUIui` with `x = 3` (R34, R44). -/
  | luiuiBank3
  /-- Subop `0010` or `0101` (R34). -/
  | unassignedSubop
  /-- A shift or rotate with bits [11-5] not zero (R34). -/
  | i5ReservedBits
  deriving DecidableEq, Repr

/-- The `width` bits of a word from bit `lo` up; bit 0 is the least significant (R5). -/
def fieldOf (w : InstrWord) (lo width : Nat) : BitVec width := w.extractLsb' lo width

/-- The instructions of format `I12` by subop (R29, R33). -/
def i12Of (s : BitVec 4) : Option (Imm12 → RegNum → Instr) :=
  match s with
  | 0b0001#4 => some .movui
  | 0b0011#4 => some .addui
  | 0b0100#4 => some .subui
  | 0b0110#4 => some .andui
  | 0b0111#4 => some .orui
  | 0b1000#4 => some .xorui
  | 0b1101#4 => some .cmpui
  | _ => none

/-- The instructions of format `I5` by subop (R30, R33). -/
def i5Of (s : BitVec 4) : Option (Imm5 → RegNum → Instr) :=
  match s with
  | 0b1001#4 => some .shlui
  | 0b1010#4 => some .rolui
  | 0b1011#4 => some .shrui
  | 0b1100#4 => some .rorui
  | 0b1110#4 => some .shluiv
  | 0b1111#4 => some .shruiv
  | _ => none

/-- The arm of R36 for subop `0000`: the reserved bits are looked at before `x`. -/
def decodeL (w : InstrWord) : Except NoMeaning Instr :=
  if fieldOf w 12 2 ≠ 0#2 then .error .luiuiReservedBits
  else if fieldOf w 14 2 = 3#2 then .error .luiuiBank3
  else .ok (.luiui (fieldOf w 14 2) (fieldOf w 0 12))

/-- The decoder, total on 24-bit words (R36). -/
def decode (w : InstrWord) : Except NoMeaning Instr :=
  if fieldOf w 20 4 ≠ 0b0001#4 then .error .otherOpclass
  else if fieldOf w 16 4 = 0b0000#4 then decodeL w
  else
    match i12Of (fieldOf w 16 4) with
    | some mk => .ok (mk (fieldOf w 0 12) (fieldOf w 12 4))
    | none =>
      match i5Of (fieldOf w 16 4) with
      | some mk =>
        if fieldOf w 5 7 ≠ 0#7 then .error .i5ReservedBits
        else .ok (mk (fieldOf w 0 5) (fieldOf w 12 4))
      | none => .error .unassignedSubop

/-- Format `L` (R28): opclass, subop, `x`, two reserved bits, `imm12`. -/
def wordL (x : BankNum) (imm : Imm12) : InstrWord := 0b0001#4 ++ 0b0000#4 ++ x ++ 0b00#2 ++ imm

/-- Format `I12` (R29): opclass, subop, `DRt`, `imm12`. -/
def wordI12 (s : BitVec 4) (imm : Imm12) (t : RegNum) : InstrWord := 0b0001#4 ++ s ++ t ++ imm

/-- Format `I5` (R30): opclass, subop, `DRt`, seven reserved bits, `imm5`. -/
def wordI5 (s : BitVec 4) (amount : Imm5) (t : RegNum) : InstrWord :=
  0b0001#4 ++ s ++ t ++ 0b0000000#7 ++ amount

/-- The word of an instruction (R28 to R30, R33). -/
def encode : Instr → InstrWord
  | .luiui x imm => wordL x imm
  | .movui imm t => wordI12 0b0001#4 imm t
  | .addui imm t => wordI12 0b0011#4 imm t
  | .subui imm t => wordI12 0b0100#4 imm t
  | .andui imm t => wordI12 0b0110#4 imm t
  | .orui imm t => wordI12 0b0111#4 imm t
  | .xorui imm t => wordI12 0b1000#4 imm t
  | .shlui amount t => wordI5 0b1001#4 amount t
  | .shluiv amount t => wordI5 0b1110#4 amount t
  | .rolui amount t => wordI5 0b1010#4 amount t
  | .shrui amount t => wordI5 0b1011#4 amount t
  | .shruiv amount t => wordI5 0b1111#4 amount t
  | .rorui amount t => wordI5 0b1100#4 amount t
  | .cmpui imm t => wordI12 0b1101#4 imm t

/-- The names of the 14 instructions, the rows of `opcode_table.json` (R1, R33). -/
inductive Mnemonic where
  | LUIui | MOVui | ADDui | SUBui | ANDui | ORui | XORui
  | SHLui | SHLuiv | ROLui | SHRui | SHRuiv | RORui | CMPui
  deriving DecidableEq, Repr

/-- The name of an instruction (R33). -/
def Instr.mnemonic : Instr → Mnemonic
  | .luiui _ _ => .LUIui
  | .movui _ _ => .MOVui
  | .addui _ _ => .ADDui
  | .subui _ _ => .SUBui
  | .andui _ _ => .ANDui
  | .orui _ _ => .ORui
  | .xorui _ _ => .XORui
  | .shlui _ _ => .SHLui
  | .shluiv _ _ => .SHLuiv
  | .rolui _ _ => .ROLui
  | .shrui _ _ => .SHRui
  | .shruiv _ _ => .SHRuiv
  | .rorui _ _ => .RORui
  | .cmpui _ _ => .CMPui

/-- One row of the opcode map: a name with its match and mask values (R33). -/
structure OpcodeRow where
  name : Mnemonic
  pattern : InstrWord
  mask : InstrWord
  deriving DecidableEq, Repr

/-- The opcode map of opclass 0001 (R33, `opcode_table.json`), in subop order. -/
def opcodeRows : List OpcodeRow :=
  [⟨.LUIui, 0x100000#24, 0xFF3000#24⟩, ⟨.MOVui, 0x110000#24, 0xFF0000#24⟩,
   ⟨.ADDui, 0x130000#24, 0xFF0000#24⟩, ⟨.SUBui, 0x140000#24, 0xFF0000#24⟩,
   ⟨.ANDui, 0x160000#24, 0xFF0000#24⟩, ⟨.ORui, 0x170000#24, 0xFF0000#24⟩,
   ⟨.XORui, 0x180000#24, 0xFF0000#24⟩, ⟨.SHLui, 0x190000#24, 0xFF0FE0#24⟩,
   ⟨.ROLui, 0x1A0000#24, 0xFF0FE0#24⟩, ⟨.SHRui, 0x1B0000#24, 0xFF0FE0#24⟩,
   ⟨.RORui, 0x1C0000#24, 0xFF0FE0#24⟩, ⟨.CMPui, 0x1D0000#24, 0xFF0000#24⟩,
   ⟨.SHLuiv, 0x1E0000#24, 0xFF0FE0#24⟩, ⟨.SHRuiv, 0x1F0000#24, 0xFF0FE0#24⟩]

/-- A word is the instruction of a row when it has the row's match value under the row's mask and, for `LUIui`,
its bits [15-14] are not `11` (R33). -/
def OpcodeRow.matchesWord (r : OpcodeRow) (w : InstrWord) : Bool :=
  w &&& r.mask == r.pattern && (r.name != .LUIui || fieldOf w 14 2 != 3#2)

/-- The instruction word whose bits are `w`, numbered as `opcode_table.json` numbers them: the hardware has one
word per instruction and no byte order (R21, R27), so the number is the word. Only the low `nbits` bits count. -/
def instrWordOfNat (nbits w : Nat) : InstrWord := BitVec.ofNat 24 (w % 2 ^ nbits)

/-- What the decoder reads from a word numbered as `opcode_table.json` numbers it. -/
def decodeTableWord (nbits w : Nat) : Option Instr := (decode (instrWordOfNat nbits w)).toOption

end Sys2Proof
end

