-- ==== Sys2Proof/Machine/State.lean ====
section
/-!
DEFINITION. The state of the machine (`10_state.md`), the reasons a step stops (`60_exceptions.md`) and the state
after reset (`10_state.md` R19, `70_reset_and_hazards.md` R77).
-/

namespace Sys2Proof.Machine

/-- The state (R10 to R16). Every field but `draws` is named by the spec. -/
structure State where
  /-- `DR0` to `DR15` (R10, R11). -/
  dr : Vector Word 16
  /-- The zero flag (R12, R52). -/
  z : Bool
  /-- Named by the flag tables and written by no instruction of the class (R12). -/
  n : Bool
  /-- The carry flag (R12, R53, R63). -/
  c : Bool
  /-- Named by the flag tables and written by no instruction of the class (R12). -/
  v : Bool
  /-- The upper-immediate register, bank `k` in bits `12k+11` to `12k` (R13). -/
  uimm : Uimm
  /-- `uimm_valid`, bit `k` for bank `k` (R14). -/
  uimmValid : UimmValid
  /-- The index of the current word in the program store (R15). -/
  pc : Nat
  /-- The program store, a finite list of words that no instruction writes (R16). -/
  program : List InstrWord
  /-- THE MODEL'S OWN field, a DESIGN CHOICE (entry 7): how many free values have been drawn. -/
  draws : Nat
  deriving DecidableEq, Repr

/-- What a software interrupt carries: a name, never a number (R65). -/
inductive Cause where
  /-- The bank an instruction needs is invalid or stale (R66). -/
  | uimmState
  /-- A checked shift has an amount of 24 or more (R67). -/
  | arithRange
  deriving DecidableEq, Repr

/-- Why the machine stops with a fault. -/
inductive Fault where
  /-- `Trap(cause, pc)` of R68: raised by `raiseSwi`, from the seven instructions that read bank 0
  (`UIMM_STATE`) and from `SHLuiv` and `SHRuiv` (`ARITH_RANGE`). Nothing is written (R69). SAFE: the spec gives
  no handler, and the run ends, so nothing is claimed of what the chip does next (D15; entry 6). -/
  | trap (cause : Cause) (pc : Nat)
  deriving DecidableEq, Repr

/-- Why the machine has no meaning for what it should do next. -/
inductive Refusal where
  /-- For an arm of `exec` that has no meaning yet; no arm uses it. SAFE. -/
  | notModelled (mnemonic : String)
  /-- `Refused(reason, pc)` of R74: raised by `step` on a word that decodes to no instruction (R34, R35), and by
  the meaning of `LUIui` on the term with `x = 3` that no word decodes to (R44). SAFE: the spec says the model
  may not guess (D17, D18; entry 15). -/
  | noMeaning (reason : NoMeaning) (pc : Nat)
  /-- Raised by `step` when `pc` is the length of the program: the run is `Done`, the normal end of a run, and
  there is no further step (R76, R83). DESIGN CHOICE of the name (entry 6). SAFE. -/
  | endOfProgram (pc : Nat)
  /-- Raised by `step` when `pc` lies beyond the program, where the store has no word (R16). No run that starts
  inside its program comes here. DESIGN CHOICE of the name (entry 6). SAFE. -/
  | noWordAtPc (pc : Nat)
  deriving DecidableEq, Repr

/-- The state right after reset with the entry point the host supplies (R4, R19, R77, R82): `uimm_valid` is `000` and
`pc` is `RESET_PC`, the argument. DESIGN CHOICE: the spec gives the data registers, the flags and `uimm` no value, and
this state holds 0 in them (entries 1, 2, 3); claims about what follows reset are stated for every state that meets
`Sys2Proof.Safety.AfterReset` and not for this one alone. No program is loaded yet (entry 5). -/
def State.resetAt (resetPc : Nat) : State where
  dr := Vector.replicate 16 0
  z := false
  n := false
  c := false
  v := false
  uimm := 0
  uimmValid := 0b000#3
  pc := resetPc
  program := []
  draws := 0

/-- The state right after reset with `RESET_PC` at the spec's default (R4, R19; entry 4). -/
def State.reset : State := State.resetAt Config.defaultResetPc

end Sys2Proof.Machine
end

