-- ==== Sys2Proof/Machine/Operands.lean ====
section
/-!
DEFINITION. The operand forms: a data register (`10_state.md` R10), the 24-bit operand made of bank 0 and `imm12`
(`30_encoding.md` R31), the shift amount (R32), and the banks of `uimm` (`10_state.md` R13, R14).
-/

namespace Sys2Proof.Machine

/-- `DR[t]` (R10); no register is hard-wired. -/
def State.readDR (s : State) (t : RegNum) : Word := s.dr[t.toNat]'t.isLt

/-- `DR[t] <- v` (R10). -/
def State.writeDR (s : State) (t : RegNum) (v : Word) : State := { s with dr := s.dr.set t.toNat v t.isLt }

/-- Bank `k` of a value of `uimm` (R13). -/
def bankOf (u : Uimm) (k : Nat) : Imm12 := u.extractLsb' (12 * k) 12

/-- `uimm` with bank `x` replaced; the other two banks keep their bits (R13, R40). `x = 3` names no bank (R44). -/
def withBank (u : Uimm) (x : BankNum) (imm : Imm12) : Uimm :=
  match x with
  | 0b00#2 => u.extractLsb' 12 24 ++ imm
  | 0b01#2 => u.extractLsb' 24 12 ++ imm ++ u.extractLsb' 0 12
  | 0b10#2 => imm ++ u.extractLsb' 0 24
  | _ => u

/-- Bank `k` was written in the atomic window that is still open (R14). -/
def State.bankValid (s : State) (k : Nat) : Bool := s.uimmValid.getLsbD k

/-- The 24-bit operand `{uimm[11:0], imm12}`, bank 0 in the high half (R31). -/
def imm24Of (u : Uimm) (imm : Imm12) : Word := bankOf u 0 ++ imm

/-- The 24-bit operand of an instruction with field `imm` (R31). -/
def State.imm24 (s : State) (imm : Imm12) : Word := imm24Of s.uimm imm

/-- The shift or rotate amount: the field as an unsigned number, not scaled and not biased (R32). -/
def amountOf (amount : Imm5) : Nat := amount.toNat

end Sys2Proof.Machine
end

