-- ==== Sys2Proof/Machine/Ops.lean ====
section
/-!
DEFINITION. The operations the meanings share: writing flags, drawing a free value, the atomic window
(`40_upper_immediate.md` R41, R42), raising a software interrupt (`60_exceptions.md` R68), completing an
instruction, the frame of the immediate instructions (`41_imm24_alu.md` R45), fetch (`20_memory.md` R21) and the
host's supply of the program and `RESET_PC` (`70_reset_and_hazards.md` R82).
-/

namespace Sys2Proof.Machine

/-- How one instruction or one step ends (R76). -/
abbrev StepOutcome := Host.Outcome State Fault Refusal

/-- Write `z` alone. -/
def State.setZ (s : State) (b : Bool) : State := { s with z := b }

/-- Write `c` alone. -/
def State.setC (s : State) (b : Bool) : State := { s with c := b }

/-- `c <- draw`: any bit (R8, R55; entry 7). -/
def State.drawC (s : State) : State := { s with c := Config.freeBit s.draws, draws := s.draws + 1 }

/-- `z <- draw`: any bit (R8, R56; entry 7). -/
def State.drawZ (s : State) : State := { s with z := Config.freeBit s.draws, draws := s.draws + 1 }

/-- `DR[t] <- draw`: any 24-bit value (R8, R56; entry 7). -/
def State.drawDR (s : State) (t : RegNum) : State :=
  { s.writeDR t (Config.freeWord s.draws) with draws := s.draws + 1 }

/-- `pc <- pc + 1` (R15). -/
def State.advance (s : State) : State := { s with pc := s.pc + 1 }

/-- `uimm_valid[x] <- 1`, the other bits as they were (R41). -/
def State.openWindow (s : State) (x : BankNum) : State :=
  { s with uimmValid := s.uimmValid ||| (1#3 <<< x.toNat) }

/-- What the completion of an instruction other than `LUIui` does to the validity bits, under a setting of
`UIMM_WINDOW` (R42, D13): the bits become `000`, or stay. `uimm` keeps its value. -/
def State.closeWindow (setting : UimmWindow) (s : State) : State :=
  match setting with
  | .strict => { s with uimmValid := 0b000#3 }
  | .sticky => s

/-- The last two steps of every instruction other than `LUIui`: close the window, advance (R45, R54, R64). -/
def State.complete (s : State) : State := (s.closeWindow Setting.uimmWindow).advance

/-- `raise SWI(cause)` (R68): the step ends in `Trap(cause, pc)` with the index of the raising instruction, and
nothing is written (R69). The spec describes no handler entry and no return (R68, R72), so this is the whole of
taking an exception, and there is no return beside it. -/
def raiseSwi (cause : Cause) (s : State) : StepOutcome := .fault (.trap cause s.pc)

/-- The step outcome for what has no meaning (R74). -/
def refuseWord (reason : NoMeaning) (s : State) : StepOutcome := .refused (.noMeaning reason s.pc)

/-- The frame of the seven instructions that take the 24-bit operand (R43, R45, R64): the check of bank 0 before
anything else, then the instruction's own writes from the operand, then completion. -/
def withImm24 (imm : Imm12) (s : State) (body : Word → State) : StepOutcome :=
  if s.bankValid 0 then .next (body (s.imm24 imm)).complete else raiseSwi .uimmState s

/-- Write a result to `DR[t]` and `z` from it (R52). -/
def State.writeResult (s : State) (t : RegNum) (result : Word) : State :=
  (s.writeDR t result).setZ (zeroFlag result)

/-- Fetch: `word = program[pc]`, absent where the program has no word (R16, R21). -/
def State.fetch (s : State) : Option InstrWord := s.program[s.pc]?

/-- A program with word `w` at index `k`; the gap before `k`, if the list is shorter, is filled with words of
opclass 0000. It is the host's, not an instruction's (R82). -/
def placeWord (program : List InstrWord) (k : Nat) (w : InstrWord) : List InstrWord :=
  match program, k with
  | [], 0 => [w]
  | [], k + 1 => 0 :: placeWord [] k w
  | _ :: rest, 0 => w :: rest
  | first :: rest, k + 1 => first :: placeWord rest k w

/-- The host supplies the program before the run (R16, R82; entry 5). -/
def State.loadProgram (s : State) (program : List InstrWord) : State := { s with program := program }

/-- The start of a run: the host supplies `RESET_PC` and the program, and the machine is right after reset (R4, R77,
R82; entries 4, 5). -/
def State.startRun (resetPc : Nat) (program : List InstrWord) : State := (State.resetAt resetPc).loadProgram program

end Sys2Proof.Machine
end

