-- ==== Sys2Proof/Machine/Compare.lean ====
section
/-!
DEFINITION. `CMPui` (`43_compare.md` R64).
-/

namespace Sys2Proof.Machine

/-- `CMPui #imm12, DRt` (R64): the flags of the register less the constant, no register written. -/
def execCmpui (imm : Imm12) (t : RegNum) (s : State) : StepOutcome :=
  withImm24 imm s fun b =>
    (s.setZ (zeroFlag (s.readDR t - b))).setC (subCarry Setting.subCarry (s.readDR t) b)

end Sys2Proof.Machine
end

