-- ==== Sys2Proof/Machine/Imm24Alu.lean ====
section
/-!
DEFINITION. The six instructions that combine `DR[t]` with the 24-bit operand and write `DR[t]`
(`41_imm24_alu.md` R45 to R53).
-/

namespace Sys2Proof.Machine

/-- `MOVui #imm12, DRt` (R46): `DR[t] <- imm24`. -/
def execMovui (imm : Imm12) (t : RegNum) (s : State) : StepOutcome :=
  withImm24 imm s fun b => s.writeResult t b

/-- `ADDui #imm12, DRt` (R47): the sum modulo `2^24`, `c` the carry out of bit 23. -/
def execAddui (imm : Imm12) (t : RegNum) (s : State) : StepOutcome :=
  withImm24 imm s fun b => (s.writeResult t (s.readDR t + b)).setC (addCarry (s.readDR t) b)

/-- `SUBui #imm12, DRt` (R48): the register less the constant, modulo `2^24`, `c` as `SUB_CARRY` says. -/
def execSubui (imm : Imm12) (t : RegNum) (s : State) : StepOutcome :=
  withImm24 imm s fun b =>
    (s.writeResult t (s.readDR t - b)).setC (subCarry Setting.subCarry (s.readDR t) b)

/-- `ANDui #imm12, DRt` (R49); `c` is not written. -/
def execAndui (imm : Imm12) (t : RegNum) (s : State) : StepOutcome :=
  withImm24 imm s fun b => s.writeResult t (s.readDR t &&& b)

/-- `ORui #imm12, DRt` (R50); `c` is not written. -/
def execOrui (imm : Imm12) (t : RegNum) (s : State) : StepOutcome :=
  withImm24 imm s fun b => s.writeResult t (s.readDR t ||| b)

/-- `XORui #imm12, DRt` (R51); `c` is not written. -/
def execXorui (imm : Imm12) (t : RegNum) (s : State) : StepOutcome :=
  withImm24 imm s fun b => s.writeResult t (s.readDR t ^^^ b)

end Sys2Proof.Machine
end

