-- ==== Sys2Proof/Machine/ShiftRotate.lean ====
section
/-!
DEFINITION. The six shift and rotate instructions (`42_shift_rotate.md` R54 to R63).
-/

namespace Sys2Proof.Machine

/-- The four operations: `<<`, `>>`, `<<<` and `>>>`, of which the last two are rotations (R6, R63, C3). -/
inductive ShiftKind where
  | left
  | right
  | rotLeft
  | rotRight
  deriving DecidableEq, Repr

/-- `rotl24(a, s)` (R8, R59). -/
def rotl24 (a : Word) (s : Nat) : Word := a <<< s ||| a >>> (24 - s)

/-- `rotr24(a, s)` (R8, R62). -/
def rotr24 (a : Word) (s : Nat) : Word := a >>> s ||| a <<< (24 - s)

/-- The result of an operation on `a` by `s` places, `1 <= s <= 23`; a shift fills with zeros (R57, R59, R60, R62,
R63). -/
def shiftResult (kind : ShiftKind) (a : Word) (s : Nat) : Word :=
  match kind with
  | .left => a <<< s
  | .right => a >>> s
  | .rotLeft => rotl24 a s
  | .rotRight => rotr24 a s

/-- The carry of an operation on `a` by `s` places, `1 <= s <= 23` (R63). -/
def shiftCarryOut (kind : ShiftKind) (a : Word) (s : Nat) : Bool :=
  match kind with
  | .left => leftShiftCarry Setting.shiftCarry a s
  | .right => rightShiftCarry Setting.shiftCarry a s
  | .rotLeft => leftShiftCarry Setting.shiftCarry a s
  | .rotRight => rightShiftCarry Setting.shiftCarry a s

/-- The writes for an amount of 1 to 23 (R54). -/
def shiftWithin (kind : ShiftKind) (t : RegNum) (s : Nat) (st : State) : State :=
  (st.writeResult t (shiftResult kind (st.readDR t) s)).setC (shiftCarryOut kind (st.readDR t) s)

/-- The writes for amount 0 (R55): the register keeps its value, `z` is written from it, and `c` is as
`SHIFT0_CARRY` says. -/
def shiftByZero (t : RegNum) (st : State) : State :=
  match Setting.shift0Carry with
  | .draw => (st.setZ (zeroFlag (st.readDR t))).drawC
  | .unchanged => st.setZ (zeroFlag (st.readDR t))
  | .cleared => (st.setZ (zeroFlag (st.readDR t))).setC false

/-- The writes of an unchecked form for an amount of 24 to 31 (R56), as `SHIFT_OOR` says: `DR[t]`, `z` and `c` are
three separate draws, or the setting `natural`. -/
def shiftBeyond (kind : ShiftKind) (t : RegNum) (s : Nat) (st : State) : State :=
  match Setting.shiftOor with
  | .draw => ((st.drawDR t).drawZ).drawC
  | .natural =>
    match kind with
    | .left => (st.writeResult t 0).setC (s == 24 && (st.readDR t).getLsbD 0)
    | .right => (st.writeResult t 0).setC (s == 24 && (st.readDR t).getLsbD (23))
    | .rotLeft => if s = 24 then shiftByZero t st else shiftWithin .rotLeft t (s - 24) st
    | .rotRight => if s = 24 then shiftByZero t st else shiftWithin .rotRight t (s - 24) st

/-- The frame of the unchecked forms (R54): by amount, then completion. No check of the banks is made (R43, C1). -/
def shiftRotate (kind : ShiftKind) (amount : Imm5) (t : RegNum) (st : State) : StepOutcome :=
  if amountOf amount = 0 then .next (shiftByZero t st).complete
  else if amountOf amount < 24 then .next (shiftWithin kind t (amountOf amount) st).complete
  else .next (shiftBeyond kind t (amountOf amount) st).complete

/-- The check of the `..uiv` forms (R58, R61, R67): an amount of 24 or more raises `ARITH_RANGE` and nothing is
written. -/
def checkedShift (kind : ShiftKind) (amount : Imm5) (t : RegNum) (st : State) : StepOutcome :=
  if 24 ≤ amountOf amount then raiseSwi .arithRange st else shiftRotate kind amount t st

/-- `SHLui #imm5, DRt` (R57). -/
def execShlui (amount : Imm5) (t : RegNum) (s : State) : StepOutcome := shiftRotate .left amount t s

/-- `SHLuiv #imm5, DRt` (R58). -/
def execShluiv (amount : Imm5) (t : RegNum) (s : State) : StepOutcome := checkedShift .left amount t s

/-- `ROLui #imm5, DRt` (R59). -/
def execRolui (amount : Imm5) (t : RegNum) (s : State) : StepOutcome := shiftRotate .rotLeft amount t s

/-- `SHRui #imm5, DRt` (R60). -/
def execShrui (amount : Imm5) (t : RegNum) (s : State) : StepOutcome := shiftRotate .right amount t s

/-- `SHRuiv #imm5, DRt` (R61). -/
def execShruiv (amount : Imm5) (t : RegNum) (s : State) : StepOutcome := checkedShift .right amount t s

/-- `RORui #imm5, DRt` (R62). -/
def execRorui (amount : Imm5) (t : RegNum) (s : State) : StepOutcome := shiftRotate .rotRight amount t s

end Sys2Proof.Machine
end

