-- ==== Sys2Proof/Machine/UpperImmediate.lean ====
section
/-!
DEFINITION. `LUIui`, the one instruction that writes `uimm` (`40_upper_immediate.md` R40, R41, R44).
-/

namespace Sys2Proof.Machine

/-- `LUIui #x, #imm12` (R40): bank `x` takes the immediate and becomes valid; the window is not closed. The term
with `x = 3`, which no word decodes to, is refused with the decoder's reason (R44). -/
def execLuiui (x : BankNum) (imm : Imm12) (s : State) : StepOutcome :=
  if x = 3#2 then refuseWord .luiuiBank3 s
  else .next ({ s with uimm := withBank s.uimm x imm }.openWindow x).advance

end Sys2Proof.Machine
end

