-- ==== Sys2Proof/Machine/Dispatch.lean ====
section
/-!
DEFINITION. The meaning of every instruction, one arm per constructor (`00_scope.md` R1).
-/

namespace Sys2Proof.Machine

def exec (i : Instr) (s : State) : Host.Outcome State Fault Refusal :=
  match i with
  | .luiui x imm => Sys2Proof.Machine.execLuiui x imm s
  | .movui imm t => Sys2Proof.Machine.execMovui imm t s
  | .addui imm t => Sys2Proof.Machine.execAddui imm t s
  | .subui imm t => Sys2Proof.Machine.execSubui imm t s
  | .andui imm t => Sys2Proof.Machine.execAndui imm t s
  | .orui imm t => Sys2Proof.Machine.execOrui imm t s
  | .xorui imm t => Sys2Proof.Machine.execXorui imm t s
  | .shlui amount t => Sys2Proof.Machine.execShlui amount t s
  | .shluiv amount t => Sys2Proof.Machine.execShluiv amount t s
  | .rolui amount t => Sys2Proof.Machine.execRolui amount t s
  | .shrui amount t => Sys2Proof.Machine.execShrui amount t s
  | .shruiv amount t => Sys2Proof.Machine.execShruiv amount t s
  | .rorui amount t => Sys2Proof.Machine.execRorui amount t s
  | .cmpui imm t => Sys2Proof.Machine.execCmpui imm t s

end Sys2Proof.Machine
end

