-- ==== Sys2Proof/Machine/Step.lean ====
section
/-!
DEFINITION. One step of the machine (`60_exceptions.md` R76) and the placing of one word where the next step
fetches.
-/

namespace Sys2Proof.Machine

/-- One step (R76): fetch the word at `pc`, decode it, run it; a word with no meaning is refused (R74). The advance
of `pc` is the instruction's own last act (R15). Without a word there is no step: the run has ended (R83). -/
def step (s : State) : Host.Outcome State Fault Refusal :=
  match s.fetch with
  | some w =>
    match decode w with
    | .ok i => exec i s
    | .error reason => refuseWord reason s
  | none => if s.pc = s.program.length then .refused (.endOfProgram s.pc) else .refused (.noWordAtPc s.pc)

/-- The state with one instruction word, numbered as `opcode_table.json` numbers it, in the program store at `pc`,
where the next step fetches (R21, R82; entry 5). -/
def State.withFetchWord (s : State) (nbits w : Nat) : State :=
  s.loadProgram (placeWord s.program s.pc (instrWordOfNat nbits w))

end Sys2Proof.Machine
end

