-- ==== Sys2Proof/Machine/Assembly.lean ====
section
/-!
DEFINITION. The two assembly spellings of the source and the isa-level macros (`00_scope.md` R9, `30_encoding.md`
R37, R38). A line of assembly is held as its name, its immediates and its register number, each number of any
size; assembling checks the ranges (D27; entry 17).
-/

namespace Sys2Proof.Machine

/-- A line of the uop spelling: `ADDui #801, DR1` is `⟨.ADDui, [801], some 1⟩` (R37). -/
structure UopLine where
  name : Mnemonic
  imms : List Nat
  reg : Option Nat
  deriving DecidableEq, Repr

/-- The 14 names of the isa level (R38). -/
inductive IsaName where
  | loadUpperImm | copyU | addU | subU | andBits | orBits | xorBits | compU
  | shiftLeft | shiftLeftV | rotLeft | shiftRight | shiftRightV | rotRight
  deriving DecidableEq, Repr

/-- A line of the isa spelling: `add.u 801, d1` is `⟨.addU, [801], some 1⟩` (R38). -/
structure IsaLine where
  name : IsaName
  imms : List Nat
  reg : Option Nat
  deriving DecidableEq, Repr

/-- The mnemonics that take `#imm12, DRt` (R29, R37). -/
def i12Named (m : Mnemonic) : Option (Imm12 → RegNum → Instr) :=
  match m with
  | .MOVui => some .movui
  | .ADDui => some .addui
  | .SUBui => some .subui
  | .ANDui => some .andui
  | .ORui => some .orui
  | .XORui => some .xorui
  | .CMPui => some .cmpui
  | .LUIui | .SHLui | .SHLuiv | .ROLui | .SHRui | .SHRuiv | .RORui => none

/-- The mnemonics that take `#imm5, DRt` (R30, R37). -/
def i5Named (m : Mnemonic) : Option (Imm5 → RegNum → Instr) :=
  match m with
  | .SHLui => some .shlui
  | .SHLuiv => some .shluiv
  | .ROLui => some .rolui
  | .SHRui => some .shrui
  | .SHRuiv => some .shruiv
  | .RORui => some .rorui
  | .LUIui | .MOVui | .ADDui | .SUBui | .ANDui | .ORui | .XORui | .CMPui => none

/-- Assemble one uop line; an operand out of its range is rejected, never truncated (R37, D27). -/
def assembleUop (l : UopLine) : Option Instr :=
  match l.imms, l.reg with
  | [x, imm], none =>
    if l.name = .LUIui ∧ x ≤ 2 ∧ imm ≤ 4095 then some (.luiui (BitVec.ofNat 2 x) (BitVec.ofNat 12 imm)) else none
  | [imm], some t =>
    match i12Named l.name, i5Named l.name with
    | some mk, _ => if imm ≤ 4095 ∧ t ≤ 15 then some (mk (BitVec.ofNat 12 imm) (BitVec.ofNat 4 t)) else none
    | none, some mk => if imm ≤ 31 ∧ t ≤ 15 then some (mk (BitVec.ofNat 5 imm) (BitVec.ofNat 4 t)) else none
    | none, none => none
  | _, _ => none

/-- The uop line of an instruction (R37). -/
def disassemble (i : Instr) : UopLine :=
  match i with
  | .luiui x imm => ⟨.LUIui, [x.toNat, imm.toNat], none⟩
  | .movui imm t => ⟨.MOVui, [imm.toNat], some t.toNat⟩
  | .addui imm t => ⟨.ADDui, [imm.toNat], some t.toNat⟩
  | .subui imm t => ⟨.SUBui, [imm.toNat], some t.toNat⟩
  | .andui imm t => ⟨.ANDui, [imm.toNat], some t.toNat⟩
  | .orui imm t => ⟨.ORui, [imm.toNat], some t.toNat⟩
  | .xorui imm t => ⟨.XORui, [imm.toNat], some t.toNat⟩
  | .shlui amount t => ⟨.SHLui, [amount.toNat], some t.toNat⟩
  | .shluiv amount t => ⟨.SHLuiv, [amount.toNat], some t.toNat⟩
  | .rolui amount t => ⟨.ROLui, [amount.toNat], some t.toNat⟩
  | .shrui amount t => ⟨.SHRui, [amount.toNat], some t.toNat⟩
  | .shruiv amount t => ⟨.SHRuiv, [amount.toNat], some t.toNat⟩
  | .rorui amount t => ⟨.RORui, [amount.toNat], some t.toNat⟩
  | .cmpui imm t => ⟨.CMPui, [imm.toNat], some t.toNat⟩

/-- What an isa name assembles to: one uop of the same operands, or the macro of two (R38). -/
def isaTarget (name : IsaName) : Mnemonic × Bool :=
  match name with
  | .loadUpperImm => (.LUIui, false)
  | .copyU => (.MOVui, true)
  | .addU => (.ADDui, true)
  | .subU => (.SUBui, true)
  | .andBits => (.ANDui, true)
  | .orBits => (.ORui, true)
  | .xorBits => (.XORui, true)
  | .compU => (.CMPui, true)
  | .shiftLeft => (.SHLui, false)
  | .shiftLeftV => (.SHLuiv, false)
  | .rotLeft => (.ROLui, false)
  | .shiftRight => (.SHRui, false)
  | .shiftRightV => (.SHRuiv, false)
  | .rotRight => (.RORui, false)

/-- The uop lines of an isa line. A macro always emits both uops, `LUIui #0, #imm24[23-12]` first, and rejects an
`imm24` that does not fit in 24 bits (R38, D27). -/
def expandIsa (l : IsaLine) : Option (List UopLine) :=
  match isaTarget l.name with
  | (m, false) => some [⟨m, l.imms, l.reg⟩]
  | (m, true) =>
    match l.imms with
    | [imm24] =>
      if imm24 ≤ 16777215 then some [⟨.LUIui, [0, imm24 / 4096], none⟩, ⟨m, [imm24 % 4096], l.reg⟩] else none
    | _ => none

/-- Assemble a list of uop lines; one line rejected rejects the list. -/
def assembleUops (ls : List UopLine) : Option (List Instr) :=
  match ls with
  | [] => some []
  | l :: rest =>
    match assembleUop l, assembleUops rest with
    | some i, some is => some (i :: is)
    | _, _ => none

/-- Assemble one isa line (R38). -/
def assembleIsa (l : IsaLine) : Option (List Instr) := (expandIsa l).bind assembleUops

/-- Assemble an isa-level program to the words of a program store (R9, R16, R38). -/
def assembleProgram (ls : List IsaLine) : Option (List InstrWord) :=
  match ls with
  | [] => some []
  | l :: rest =>
    match assembleIsa l, assembleProgram rest with
    | some is, some ws => some (is.map encode ++ ws)
    | _, _ => none

/-- The spelling of a mnemonic, letter for letter (R37). -/
def mnemonicText (m : Mnemonic) : String :=
  match m with
  | .LUIui => "LUIui"
  | .MOVui => "MOVui"
  | .ADDui => "ADDui"
  | .SUBui => "SUBui"
  | .ANDui => "ANDui"
  | .ORui => "ORui"
  | .XORui => "XORui"
  | .SHLui => "SHLui"
  | .SHLuiv => "SHLuiv"
  | .ROLui => "ROLui"
  | .SHRui => "SHRui"
  | .SHRuiv => "SHRuiv"
  | .RORui => "RORui"
  | .CMPui => "CMPui"

/-- The spelling of an isa name, letter for letter (R38). -/
def isaText (name : IsaName) : String :=
  match name with
  | .loadUpperImm => "load_upper_imm"
  | .copyU => "copy.u"
  | .addU => "add.u"
  | .subU => "sub.u"
  | .andBits => "and"
  | .orBits => "or"
  | .xorBits => "xor"
  | .compU => "comp.u"
  | .shiftLeft => "shift_left"
  | .shiftLeftV => "shift_left.v"
  | .rotLeft => "rot_left"
  | .shiftRight => "shift_right"
  | .shiftRightV => "shift_right.v"
  | .rotRight => "rot_right"

/-- Operands separated by a comma (R37). -/
def operandText (operands : List String) : String :=
  match operands with
  | [] => ""
  | [o] => o
  | o :: rest => o ++ ", " ++ operandText rest

/-- The text of a uop line: `#` before each immediate, the register `DRt` last (R37); numbers in decimal (D27). -/
def uopText (l : UopLine) : String :=
  mnemonicText l.name ++ " " ++
    operandText (l.imms.map (fun n => "#" ++ Nat.repr n) ++ l.reg.toList.map (fun t => "DR" ++ Nat.repr t))

/-- The text of an isa line: immediates without `#`, the register `dt` last (R38). -/
def isaLineText (l : IsaLine) : String :=
  isaText l.name ++ " " ++
    operandText (l.imms.map Nat.repr ++ l.reg.toList.map (fun t => "d" ++ Nat.repr t))

end Sys2Proof.Machine
end

