-- ==== Sys2Proof/Machine/Run.lean ====
section
/-!
DEFINITION. A run to its end (`70_reset_and_hazards.md` R83).
-/

namespace Sys2Proof.Machine

/-- The three ends of a run (R83). A trap and a refusal carry the state they stopped in, which is the state before
the instruction or word they stopped at (R69). -/
inductive RunEnd where
  /-- `pc` is the length of the program: the normal end. -/
  | done (s : State)
  /-- An instruction raised a software interrupt. -/
  | trap (cause : Cause) (pc : Nat) (before : State)
  /-- The word at `pc` is reserved or of another opclass. -/
  | refused (reason : NoMeaning) (pc : Nat) (before : State)
  deriving DecidableEq, Repr

/-- The end of the run from `s`, if it is reached within `limit` steps (R83); `none` if it is not, or if `pc` lies
beyond the program. -/
def runEnd (limit : Nat) (s : State) : Option RunEnd :=
  if s.pc = s.program.length then some (.done s)
  else
    match limit with
    | 0 => none
    | k + 1 =>
      match step s with
      | .next s' => runEnd k s'
      | .fault (.trap cause pc) => some (.trap cause pc s)
      | .refused (.noMeaning reason pc) => some (.refused reason pc s)
      | .refused _ => none

end Sys2Proof.Machine
end

