-- ==== Sys2Proof/Safety.lean ====
section
/-!
DEFINITION. The terms claims are stated in: what holds right after reset, which instructions read a bank, write a
flag or leave a value open, what an instruction keeps, and the invariants of the machine.
-/

namespace Sys2Proof.Safety

open Sys2Proof.Machine

/-- A state right after reset with the entry point `resetPc` (R4, R19, R77): `uimm_valid` is `000` and `pc` is
`RESET_PC`. The data registers, the flags and `uimm` hold any values, as the spec says, and any program is loaded;
`State.resetAt resetPc` and `State.startRun resetPc program` are such states. -/
def AfterReset (resetPc : Nat) (s : State) : Prop := s.uimmValid = 0b000#3 ∧ s.pc = resetPc

/-- A run from `s` reaches its normal end within `limit` steps: no trap and no refusal (R83). -/
def RunsToDone (limit : Nat) (s : State) : Prop := ∃ s', runEnd limit s = some (.done s')

/-- The seven instructions whose operand is `{uimm[11:0], imm12}` (R13, R43). -/
def readsBank0 (i : Instr) : Bool :=
  match i with
  | .movui _ _ | .addui _ _ | .subui _ _ | .andui _ _ | .orui _ _ | .xorui _ _ | .cmpui _ _ => true
  | .luiui _ _ | .shlui _ _ | .shluiv _ _ | .rolui _ _ | .shrui _ _ | .shruiv _ _ | .rorui _ _ => false

/-- The instruction is `LUIui`. -/
def isLuiui (i : Instr) : Bool :=
  match i with
  | .luiui _ _ => true
  | .movui _ _ | .addui _ _ | .subui _ _ | .andui _ _ | .orui _ _ | .xorui _ _ | .cmpui _ _ => false
  | .shlui _ _ | .shluiv _ _ | .rolui _ _ | .shrui _ _ | .shruiv _ _ | .rorui _ _ => false

/-- The instruction has an `x` under `z` in its flag table (R12). -/
def writesZ (i : Instr) : Bool := !isLuiui i

/-- The instruction has an `x` under `c` in its flag table (R12). -/
def writesC (i : Instr) : Bool :=
  match i with
  | .addui _ _ | .subui _ _ | .cmpui _ _ => true
  | .shlui _ _ | .shluiv _ _ | .rolui _ _ | .shrui _ _ | .shruiv _ _ | .rorui _ _ => true
  | .luiui _ _ | .movui _ _ | .andui _ _ | .orui _ _ | .xorui _ _ => false

/-- The register an instruction has a `DRt` field for (R10). -/
def regOf (i : Instr) : Option RegNum :=
  match i with
  | .luiui _ _ => none
  | .movui _ t | .addui _ t | .subui _ t | .andui _ t | .orui _ t | .xorui _ t | .cmpui _ t => some t
  | .shlui _ t | .shluiv _ t | .rolui _ t | .shrui _ t | .shruiv _ t | .rorui _ t => some t

/-- `SHLuiv` or `SHRuiv` with an amount of 24 or more (R67). -/
def outOfCheckedRange (i : Instr) : Bool :=
  match i with
  | .shluiv amount _ | .shruiv amount _ => decide (24 ≤ amount.toNat)
  | .luiui _ _ | .movui _ _ | .addui _ _ | .subui _ _ | .andui _ _ | .orui _ _ | .xorui _ _ | .cmpui _ _ => false
  | .shlui _ _ | .rolui _ _ | .shrui _ _ | .rorui _ _ => false

/-- The forms whose effect the spec leaves partly open: an amount of 0 (R55), and 24 or more unchecked (R56). -/
def leavesOpen (i : Instr) : Bool :=
  match i with
  | .shlui amount _ | .rolui amount _ | .shrui amount _ | .rorui amount _ =>
    decide (amount.toNat = 0) || decide (24 ≤ amount.toNat)
  | .shluiv amount _ | .shruiv amount _ => decide (amount.toNat = 0)
  | .luiui _ _ | .movui _ _ | .addui _ _ | .subui _ _ | .andui _ _ | .orui _ _ | .xorui _ _ | .cmpui _ _ => false

/-- The 24-bit operand as the number of R31: `uimm[11:0] * 4096 + imm12`. -/
def operandNat (s : State) (imm : Imm12) : Nat := s.uimm.toNat % 4096 * 4096 + imm.toNat

/-- Every data register but `DR[t]` is kept. -/
def OtherRegsKept (t : RegNum) (s s' : State) : Prop := ∀ u, u ≠ t → s'.readDR u = s.readDR u

/-- Every data register is kept. -/
def AllRegsKept (s s' : State) : Prop := ∀ u, s'.readDR u = s.readDR u

/-- What the completion of an instruction other than `LUIui` does besides its own writes to a register, `z` and `c`
(R18): the window closes, `pc` advances, and `n`, `v`, `uimm` and the program store are kept. The program store is
the only store there is: the class has no data memory (R17, R20). -/
def Completed (s s' : State) : Prop :=
  s'.uimmValid = 0b000#3 ∧ s'.pc = s.pc + 1 ∧ s'.n = s.n ∧ s'.v = s.v ∧ s'.uimm = s.uimm ∧ s'.program = s.program

/-- The instruction draws no free value. -/
def NothingDrawn (s s' : State) : Prop := s'.draws = s.draws

/-- `mk` has format `I12` with this subop (R29). -/
def EncodedI12 (subop : Nat) (mk : Imm12 → RegNum → Instr) : Prop :=
  ∀ imm t, (encode (mk imm t)).toNat = 1 * 2 ^ 20 + subop * 2 ^ 16 + t.toNat * 2 ^ 12 + imm.toNat ∧
    decode (encode (mk imm t)) = .ok (mk imm t)

/-- `mk` has format `I5` with this subop (R30). -/
def EncodedI5 (subop : Nat) (mk : Imm5 → RegNum → Instr) : Prop :=
  ∀ amount t, (encode (mk amount t)).toNat = 1 * 2 ^ 20 + subop * 2 ^ 16 + t.toNat * 2 ^ 12 + amount.toNat ∧
    decode (encode (mk amount t)) = .ok (mk amount t)

/-- The isa name is the macro of `LUIui #0, #imm24[23-12]` and then `mk` with `imm24[11-0]`, for every 24-bit
constant and every register (R38). -/
def IsMacroOf (name : IsaName) (mk : Imm12 → RegNum → Instr) : Prop :=
  ∀ (k : Word) (t : RegNum), assembleIsa ⟨name, [k.toNat], some t.toNat⟩ =
    some [.luiui 0#2 (BitVec.ofNat 12 (k.toNat / 4096)), mk (BitVec.ofNat 12 (k.toNat % 4096)) t]

/-- The isa name is one uop, for every amount and every register (R38). -/
def IsOneUop (name : IsaName) (mk : Imm5 → RegNum → Instr) : Prop :=
  ∀ (amount : Imm5) (t : RegNum), assembleIsa ⟨name, [amount.toNat], some t.toNat⟩ = some [mk amount t]

/-- An outcome with its next state, if it has one, changed by `f`. -/
def mapNext (f : State → State) (o : StepOutcome) : StepOutcome :=
  match o with
  | .next s => .next (f s)
  | .fault r => .fault r
  | .refused r => .refused r

/-- The immediate of the last `LUIui #x` in the run of `LUIui`s that stands directly before index `pc`, if there is
one: the value bank `x` was given in the atomic window that is open at `pc` (R41, R42, R79). -/
def windowValue (program : List InstrWord) (pc : Nat) (x : BankNum) : Option Imm12 :=
  match pc with
  | 0 => none
  | p + 1 =>
    match program[p]?.map decode with
    | some (.ok (.luiui y imm)) => if y = x then some imm else windowValue program p x
    | _ => none

/-- The invariant of the atomic window (R79): a valid bank holds the immediate of the last `LUIui` to it in the run
of `LUIui`s directly before `pc`, so no instruction can use a value left from anywhere else. -/
def WindowMatchesProgram (s : State) : Prop :=
  ∀ x : BankNum, s.bankValid x.toNat = true → windowValue s.program s.pc x = some (bankOf s.uimm x.toNat)

/-- `pc` is an index of the program or its length (R15, R83). -/
def PcInProgram (s : State) : Prop := s.pc ≤ s.program.length

end Sys2Proof.Safety
end

