-- ==== Sys2Proof/Certificates/Slice0/Obligations.lean ====
section
/-!
DEFINITION. The statements for the provers, one `def Obligations.<Name> : Prop` each, taken from the numbered rules
of `spec/`. "D<n>" in a docstring names the decision of the spec that a clause rests on.
-/

open Sys2Proof Sys2Proof.Machine Sys2Proof.Safety

/-! Encoding and assembly -/

/-- Encoding loses no bit of an instruction: every well-formed instruction is what its word decodes to
(`30_encoding.md` section 5). -/
def Obligations.DecodeEncodeRoundTrip : Prop :=
  ∀ i : Instr, i.wellFormed = true → decode (encode i) = .ok i

/-- A word that decodes to an instruction is the word of that instruction, and the instruction is well formed: each
instruction has one word (`30_encoding.md` section 5). -/
def Obligations.EncodeOfDecodedWord : Prop :=
  ∀ (w : InstrWord) (i : Instr), decode w = .ok i → encode i = w ∧ i.wellFormed = true

/-- The places of the fields in the three formats: a word is `LUIui #x, #imm12`, or an `I12` or `I5` instruction
with its subop, exactly when it has the opclass, the subop, the operands and the zero reserved bits in the places of
the format tables (R28, R29, R30). -/
def Obligations.FormatFieldPlaces : Prop :=
  (∀ (w : InstrWord) (x : BankNum) (imm : Imm12), x ≠ 3#2 →
    (decode w = .ok (.luiui x imm) ↔ w.toNat = 1 * 2 ^ 20 + x.toNat * 2 ^ 14 + imm.toNat)) ∧
  (∀ p ∈ [(1, Instr.movui), (3, Instr.addui), (4, Instr.subui), (6, Instr.andui), (7, Instr.orui),
      (8, Instr.xorui), (13, Instr.cmpui)], ∀ (w : InstrWord) (imm : Imm12) (t : RegNum),
    (decode w = .ok (p.2 imm t) ↔ w.toNat = 1 * 2 ^ 20 + p.1 * 2 ^ 16 + t.toNat * 2 ^ 12 + imm.toNat)) ∧
  (∀ p ∈ [(9, Instr.shlui), (10, Instr.rolui), (11, Instr.shrui), (12, Instr.rorui), (14, Instr.shluiv),
      (15, Instr.shruiv)], ∀ (w : InstrWord) (amount : Imm5) (t : RegNum),
    (decode w = .ok (p.2 amount t) ↔ w.toNat = 1 * 2 ^ 20 + p.1 * 2 ^ 16 + t.toNat * 2 ^ 12 + amount.toNat))

/-- The decoder agrees with the match and mask values of the opcode map: a word matches a row exactly when it
decodes to an instruction of that row's name (`30_encoding.md` section 4), and every name has its row. -/
def Obligations.OpcodeMapAgreesWithDecoder : Prop :=
  (∀ r ∈ opcodeRows, ∀ w : InstrWord,
    (r.matchesWord w = true ↔ ∃ i : Instr, decode w = .ok i ∧ i.mnemonic = r.name)) ∧
  (∀ i : Instr, ∃ r ∈ opcodeRows, r.name = i.mnemonic)

/-- The words that have no meaning, by their bits, and the reason the decoder gives for each
(`30_encoding.md` section 5; the spec's decisions D17, D18). A step that fetches one is refused with that reason
and its index. -/
def Obligations.WordsWithoutMeaningAreRefused : Prop :=
  ∀ (s : State) (w : InstrWord), s.program[s.pc]? = some w →
    (w.toNat / 2 ^ 20 ≠ 1 → step s = .refused (.noMeaning .otherOpclass s.pc)) ∧
    (w.toNat / 2 ^ 16 = 0x12 ∨ w.toNat / 2 ^ 16 = 0x15 → step s = .refused (.noMeaning .unassignedSubop s.pc)) ∧
    (w.toNat / 2 ^ 16 = 0x10 → w.toNat / 2 ^ 12 % 4 ≠ 0 →
      step s = .refused (.noMeaning .luiuiReservedBits s.pc)) ∧
    (w.toNat / 2 ^ 12 = 0x10C → step s = .refused (.noMeaning .luiuiBank3 s.pc)) ∧
    (w.toNat / 2 ^ 16 ∈ [0x19, 0x1A, 0x1B, 0x1C, 0x1E, 0x1F] → w.toNat / 2 ^ 5 % 128 ≠ 0 →
      step s = .refused (.noMeaning .i5ReservedBits s.pc))

/-- A few words of `95_test_vectors.md` section 2.1. -/
def Obligations.SpecWordsDecode : Prop :=
  decode 0x104123#24 = .ok (.luiui 1 0x123) ∧ decode 0x1DFFFF#24 = .ok (.cmpui 0xFFF 15) ∧
    decode 0x19F01F#24 = .ok (.shlui 31 15) ∧ decode 0x1E3018#24 = .ok (.shluiv 24 3) ∧
    decode 0x10D000#24 = .error .luiuiReservedBits ∧ decode 0x191800#24 = .error .i5ReservedBits

/-- The uop spelling: the line of a well-formed instruction assembles to it, and a line assembles only if its
operands are in range and it is the line of the instruction it assembles to, so nothing is truncated
(`30_encoding.md` section 6; the range check is the spec's decision D27, entry 17). -/
def Obligations.UopLinesAssembleExactly : Prop :=
  (∀ i : Instr, i.wellFormed = true → assembleUop (disassemble i) = some i) ∧
    (∀ (l : UopLine) (i : Instr), assembleUop l = some i → l = disassemble i ∧ i.wellFormed = true)

/-- A macro of the isa level never traps (`70_reset_and_hazards.md` section 3): wherever the two words of a macro
stand at `pc`, in any state, two steps complete. After `copy.u` the register holds the constant. The readings are
the spec's decisions D13 and D14. -/
def Obligations.MacroPairsComplete : Prop :=
  ∀ (l : IsaLine) (u₁ u₂ : Instr) (s : State), assembleIsa l = some [u₁, u₂] →
    s.program[s.pc]? = some (encode u₁) → s.program[s.pc + 1]? = some (encode u₂) →
    ∃ s₁ s₂, step s = .next s₁ ∧ step s₁ = .next s₂ ∧ s₂.pc = s.pc + 2 ∧
      ∀ (k : Word) (t : RegNum), l = ⟨.copyU, [k.toNat], some t.toNat⟩ → s₂.readDR t = k

/-! The step and the run -/

/-- A step runs the instruction that the word at `pc` decodes to, and adds nothing around it: the advance of `pc`
is the instruction's own (`60_exceptions.md` section 6). -/
def Obligations.StepRunsDecodedInstruction : Prop :=
  ∀ (s : State) (w : InstrWord) (i : Instr), s.program[s.pc]? = some w → decode w = .ok i → step s = exec i s

/-- A placed word is what the next step runs, in every state, and the other words of the program are kept
(`70_reset_and_hazards.md` section 5: the host supplies the program). -/
def Obligations.PlacedWordIsRunNext : Prop :=
  ∀ (s : State) (i : Instr), i.wellFormed = true →
    step (s.withFetchWord 24 (encode i).toNat) = exec i (s.withFetchWord 24 (encode i).toNat) ∧
      ∀ k < s.program.length, k ≠ s.pc → (s.withFetchWord 24 (encode i).toNat).program[k]? = s.program[k]?

/-- The outcomes of a step (`60_exceptions.md` section 6; decisions D15, D17, D25): inside the program a next
state, a trap, or a refusal of a word without meaning, the last two with the index of the word; outside it no
step, and the refusal says whether the run is done. -/
def Obligations.StepOutcomes : Prop :=
  ∀ s : State,
    (s.pc < s.program.length →
      (∃ s', step s = .next s') ∨ (∃ cause, step s = .fault (.trap cause s.pc)) ∨
        (∃ reason, step s = .refused (.noMeaning reason s.pc))) ∧
    (s.pc = s.program.length → step s = .refused (.endOfProgram s.pc)) ∧
    (s.program.length < s.pc → step s = .refused (.noWordAtPc s.pc))

/-- A step that completes ran a word inside the program, advances `pc` by one and leaves the program store as it was,
so `pc` stays an index of the program or its length (`10_state.md` section 5, `20_memory.md` section 3; decisions
D19, D20). -/
def Obligations.StepAdvancesPcAndKeepsProgram : Prop :=
  ∀ s s' : State, step s = .next s' →
    s.pc < s.program.length ∧ s'.pc = s.pc + 1 ∧ s'.program = s.program ∧ PcInProgram s'

/-- Every run is finite and ends in one of the three ways within as many steps as words are left; a normal end has
`pc` at the length of the same program, and a trap or a refusal names the index it stopped at
(`70_reset_and_hazards.md` section 6; decisions D15, D17, D25). -/
def Obligations.RunEndsWithinProgramLength : Prop :=
  ∀ s : State, PcInProgram s →
    (∃ s', runEnd (s.program.length - s.pc) s = some (.done s') ∧ s'.pc = s.program.length ∧
        s'.program = s.program) ∨
    (∃ cause before, runEnd (s.program.length - s.pc) s = some (.trap cause before.pc before) ∧
        s.pc ≤ before.pc ∧ before.pc < s.program.length ∧ step before = .fault (.trap cause before.pc)) ∨
    (∃ reason before, runEnd (s.program.length - s.pc) s = some (.refused reason before.pc before) ∧
        s.pc ≤ before.pc ∧ before.pc < s.program.length ∧
        step before = .refused (.noMeaning reason before.pc))

/-- Reset with any entry point: no bank is valid and `pc` is `RESET_PC`, the argument; `State.reset` is the state for
the default 0 (`00_scope.md` section 4, `10_state.md` section 8, decision D24; that `State.reset` takes the default is
the model's choice, entry 4). -/
def Obligations.ResetState : Prop :=
  (∀ resetPc : Nat, AfterReset resetPc (State.resetAt resetPc)) ∧ State.reset = State.resetAt 0

/-- The host supplies `RESET_PC` and the program before the run (`70_reset_and_hazards.md` sections 1 and 5, decision
D24): the run begins in a state after reset with that entry point and that program, and in every state after reset the
first step is that of the word at `RESET_PC`, or there is no step where the program has no word there (entry 6). -/
def Obligations.RunStartsAtResetPc : Prop :=
  (∀ (resetPc : Nat) (program : List InstrWord), AfterReset resetPc (State.startRun resetPc program) ∧
    (State.startRun resetPc program).program = program) ∧
  ∀ (resetPc : Nat) (s : State), AfterReset resetPc s →
    (∀ (w : InstrWord) (i : Instr), s.program[resetPc]? = some w → decode w = .ok i → step s = exec i s) ∧
    (∀ (w : InstrWord) (reason : NoMeaning), s.program[resetPc]? = some w → decode w = .error reason →
      step s = .refused (.noMeaning reason resetPc)) ∧
    (s.program.length = resetPc → step s = .refused (.endOfProgram resetPc)) ∧
    (s.program.length < resetPc → step s = .refused (.noWordAtPc resetPc))

/-- After reset with any entry point, whatever the registers, the flags, `uimm` and the program hold, each of the seven
instructions that read bank 0 traps with `UIMM_STATE` (`10_state.md` section 8, `40_upper_immediate.md` section 5;
decision D24). -/
def Obligations.FirstReaderAfterResetTraps : Prop :=
  ∀ (resetPc : Nat) (s : State) (i : Instr), AfterReset resetPc s → readsBank0 i = true →
    exec i s = .fault (.trap .uimmState resetPc)

/-! The atomic window -/

/-- What a completed instruction leaves of the validity bits: `LUIui` sets the bit of its bank and keeps the other
two, and every other instruction clears all three (`40_upper_immediate.md` section 3; decisions D12, D13). -/
def Obligations.WindowOpensAndCloses : Prop :=
  ∀ (i : Instr) (s s' : State), exec i s = .next s' →
    (∀ x imm, i = .luiui x imm → ∀ k < 3, s'.bankValid k = (decide (k = x.toNat) || s.bankValid k)) ∧
      (isLuiui i = false → s'.uimmValid = 0b000#3)

/-- The invariant of the atomic window is kept by every step: a valid bank holds the immediate of the last `LUIui`
to it in the run of `LUIui`s directly before `pc` (`70_reset_and_hazards.md` section 3; decisions D12, D13). -/
def Obligations.StepKeepsWindowInvariant : Prop :=
  ∀ s s' : State, WindowMatchesProgram s → step s = .next s' → WindowMatchesProgram s'

/-- The window invariant holds after reset with any entry point, whatever the unspecified registers hold (decision
D24). -/
def Obligations.WindowInvariantAfterReset : Prop :=
  ∀ (resetPc : Nat) (s : State), AfterReset resetPc s → WindowMatchesProgram s

/-- No stale constant is ever used: in a state that meets the window invariant, a step that completes an instruction
that reads bank 0 takes the upper half of its operand from a `LUIui #0` in the run of `LUIui`s directly before it
(`70_reset_and_hazards.md` section 3; decisions D12, D13, D14). -/
def Obligations.CompletedReaderUsesWindowValue : Prop :=
  ∀ (s s' : State) (w : InstrWord) (i : Instr), WindowMatchesProgram s → s.program[s.pc]? = some w →
    decode w = .ok i → readsBank0 i = true → step s = .next s' →
    0 < s.pc ∧ windowValue s.program s.pc 0#2 = some (bankOf s.uimm 0) ∧
      ∃ x imm, (s.program[s.pc - 1]?).map decode = some (.ok (.luiui x imm))

/-- Of the validity bits, an instruction other than `LUIui` looks at bit 0 alone (`40_upper_immediate.md` section 3;
decision D12): two states that differ in the bits of banks 1 and 2 only give the same outcome. -/
def Obligations.OnlyBank0ValidityIsRead : Prop :=
  ∀ (i : Instr) (s : State) (bits : UimmValid), isLuiui i = false → bits.getLsbD 0 = s.bankValid 0 →
    exec i { s with uimmValid := bits } = exec i s

/-! Faults -/

/-- Which instructions raise which cause, and when (R65): an instruction ends in a fault exactly when it is one of
the seven that read bank 0 and bank 0 is not valid (`UIMM_STATE`), or is `SHLuiv` or `SHRuiv` with an amount of 24
or more (`ARITH_RANGE`); the cause and the index of the instruction are recorded. No instruction raises anything
else. -/
def Obligations.FaultsExactlyAsListed : Prop :=
  ∀ (i : Instr) (s : State) (f : Fault), exec i s = .fault f ↔
    (readsBank0 i = true ∧ s.bankValid 0 = false ∧ f = .trap .uimmState s.pc) ∨
      (outOfCheckedRange i = true ∧ f = .trap .arithRange s.pc)

/-- The only instruction term that is refused is `LUIui` with `x = 3`, which no word decodes to
(`40_upper_immediate.md` section 4; decision D18). Every other one completes or traps. -/
def Obligations.OnlyBank3IsRefused : Prop :=
  ∀ (i : Instr) (s : State) (r : Refusal), exec i s = .refused r ↔
    (∃ imm, i = .luiui 3#2 imm) ∧ r = .noMeaning .luiuiBank3 s.pc

/-! What instructions read and write -/

/-- The flag table of the class, and that no flag is read (R12): whatever the four flags are before, an instruction
has the same outcome, except that `n` and `v` pass through, `z` passes through in `LUIui`, and `c` passes through in
`LUIui MOVui ANDui ORui XORui`; where it does not pass through, the flag is written. -/
def Obligations.FlagTableAndNoFlagRead : Prop :=
  ∀ (i : Instr) (s : State) (z n c v : Bool),
    exec i { s with z := z, n := n, c := c, v := v } =
      mapNext (fun t => { t with z := if writesZ i then t.z else z, n := n,
                                 c := if writesC i then t.c else c, v := v }) (exec i s)

/-- The three banks (R13): `LUIui` writes the bank it names, bits `12x+11` to `12x` of `uimm`, and leaves the other
two; no other instruction writes `uimm`; and of `uimm` an instruction that reads it reads bank 0 alone, any other
instruction nothing. -/
def Obligations.UimmBanks : Prop :=
  (∀ (x : BankNum) (imm : Imm12) (s : State), x ≠ 3#2 → ∃ s', exec (.luiui x imm) s = .next s' ∧
    ∀ k < 3, s'.uimm.toNat / 2 ^ (12 * k) % 4096 =
      if k = x.toNat then imm.toNat else s.uimm.toNat / 2 ^ (12 * k) % 4096) ∧
  (∀ (i : Instr) (s s' : State), isLuiui i = false → exec i s = .next s' → s'.uimm = s.uimm) ∧
  (∀ (i : Instr) (s : State) (u : Uimm), isLuiui i = false →
    (readsBank0 i = true → u.toNat % 4096 = s.uimm.toNat % 4096) →
    exec i { s with uimm := u } = mapNext (fun t => { t with uimm := u }) (exec i s))

/-- An instruction reads and writes no data register but the one its `DRt` field names, and `LUIui` none
(`10_state.md` section 7, the access matrix): another register may hold anything before, and holds it after. -/
def Obligations.OtherRegistersNeitherReadNorWritten : Prop :=
  ∀ (i : Instr) (s : State) (u : RegNum) (v : Word), regOf i ≠ some u →
    exec i (s.writeDR u v) = mapNext (fun t => t.writeDR u v) (exec i s)

/-- `MOVui` does not read its register and `CMPui` does not write it (`10_state.md` section 2). -/
def Obligations.MovDoesNotReadCmpDoesNotWrite : Prop :=
  (∀ (imm : Imm12) (t : RegNum) (s : State) (v : Word), exec (.movui imm t) (s.writeDR t v) = exec (.movui imm t) s) ∧
    (∀ (imm : Imm12) (t : RegNum) (s s' : State), exec (.cmpui imm t) s = .next s' → AllRegsKept s s')

/-- No instruction reads `pc` but to advance it, nor the program store (`10_state.md` section 5; decisions D19,
D20): an instruction that completes does the same anywhere in any program. -/
def Obligations.PcAndProgramNotRead : Prop :=
  ∀ (i : Instr) (s s' : State) (pc : Nat) (program : List InstrWord), exec i s = .next s' →
    exec i { s with pc := pc, program := program } = .next { s' with pc := pc + 1, program := program }

/-- Values are left open only where the spec leaves them open (`42_shift_rotate.md` section 1; decisions D10, D11):
any other form draws nothing and does the same whatever was drawn before. -/
def Obligations.DrawsOnlyWhereOpen : Prop :=
  ∀ (i : Instr) (s : State) (d : Nat), leavesOpen i = false →
    exec i { s with draws := d } = mapNext (fun t => { t with draws := d }) (exec i s)

/-! The instructions, one by one: spelling, encoding, where it traps, and what it does -/

/-- `LUIui #x, #imm12` (R40): it completes for `x` 0, 1 and 2 in every state; bank `x` takes the immediate and
becomes valid; the other banks keep value and validity; flags and data registers are kept. -/
def Obligations.LuiuiWritesOneBank : Prop :=
  ∀ (x : BankNum) (imm : Imm12), x ≠ 3#2 →
    assembleIsa ⟨.loadUpperImm, [x.toNat, imm.toNat], none⟩ = some [.luiui x imm] ∧
    (encode (.luiui x imm)).toNat = 1 * 2 ^ 20 + x.toNat * 2 ^ 14 + imm.toNat ∧
    decode (encode (.luiui x imm)) = .ok (.luiui x imm) ∧
    ∀ s : State, ∃ s', exec (.luiui x imm) s = .next s' ∧
      bankOf s'.uimm x.toNat = imm ∧ s'.bankValid x.toNat = true ∧
      (∀ k < 3, k ≠ x.toNat → bankOf s'.uimm k = bankOf s.uimm k ∧ s'.bankValid k = s.bankValid k) ∧
      s'.z = s.z ∧ s'.n = s.n ∧ s'.c = s.c ∧ s'.v = s.v ∧ AllRegsKept s s' ∧
      s'.pc = s.pc + 1 ∧ s'.program = s.program ∧ NothingDrawn s s'

/-- `MOVui #imm12, DRt` (R46). -/
def Obligations.MovuiLoadsConstant : Prop :=
  IsMacroOf .copyU .movui ∧ EncodedI12 0b0001 .movui ∧
  ∀ (imm : Imm12) (t : RegNum) (s : State),
    (s.bankValid 0 = false → exec (.movui imm t) s = .fault (.trap .uimmState s.pc)) ∧
    (s.bankValid 0 = true → ∃ s', exec (.movui imm t) s = .next s' ∧
      (s'.readDR t).toNat = operandNat s imm ∧ s'.z = decide (operandNat s imm = 0) ∧
      s'.c = s.c ∧ OtherRegsKept t s s' ∧ Completed s s' ∧ NothingDrawn s s')

/-- `ADDui #imm12, DRt` (R47). -/
def Obligations.AdduiAddsModulo : Prop :=
  IsMacroOf .addU .addui ∧ EncodedI12 0b0011 .addui ∧
  ∀ (imm : Imm12) (t : RegNum) (s : State),
    (s.bankValid 0 = false → exec (.addui imm t) s = .fault (.trap .uimmState s.pc)) ∧
    (s.bankValid 0 = true → ∃ s', exec (.addui imm t) s = .next s' ∧
      (s'.readDR t).toNat = ((s.readDR t).toNat + operandNat s imm) % 2 ^ 24 ∧
      s'.z = decide (((s.readDR t).toNat + operandNat s imm) % 2 ^ 24 = 0) ∧
      s'.c = decide (2 ^ 24 ≤ (s.readDR t).toNat + operandNat s imm) ∧
      OtherRegsKept t s s' ∧ Completed s s' ∧ NothingDrawn s s')

/-- `SUBui #imm12, DRt` (`41_imm24_alu.md` section 4), with `SUB_CARRY = borrow`: the clause on `c` rests on the
spec's decision D6 (entry 9). -/
def Obligations.SubuiSubtractsModulo : Prop :=
  IsMacroOf .subU .subui ∧ EncodedI12 0b0100 .subui ∧
  ∀ (imm : Imm12) (t : RegNum) (s : State),
    (s.bankValid 0 = false → exec (.subui imm t) s = .fault (.trap .uimmState s.pc)) ∧
    (s.bankValid 0 = true → ∃ s', exec (.subui imm t) s = .next s' ∧
      (s'.readDR t).toNat =
        (if operandNat s imm ≤ (s.readDR t).toNat then (s.readDR t).toNat - operandNat s imm
         else (s.readDR t).toNat + 2 ^ 24 - operandNat s imm) ∧
      s'.z = decide ((s.readDR t).toNat = operandNat s imm) ∧
      s'.c = decide ((s.readDR t).toNat < operandNat s imm) ∧
      OtherRegsKept t s s' ∧ Completed s s' ∧ NothingDrawn s s')

/-- `ANDui #imm12, DRt` (R49), bit by bit. -/
def Obligations.AnduiAndsBitwise : Prop :=
  IsMacroOf .andBits .andui ∧ EncodedI12 0b0110 .andui ∧
  ∀ (imm : Imm12) (t : RegNum) (s : State),
    (s.bankValid 0 = false → exec (.andui imm t) s = .fault (.trap .uimmState s.pc)) ∧
    (s.bankValid 0 = true → ∃ s', exec (.andui imm t) s = .next s' ∧
      (∀ k < 24, (s'.readDR t).getLsbD k = ((s.readDR t).getLsbD k && (operandNat s imm).testBit k)) ∧
      s'.z = decide ((s'.readDR t).toNat = 0) ∧
      s'.c = s.c ∧ OtherRegsKept t s s' ∧ Completed s s' ∧ NothingDrawn s s')

/-- `ORui #imm12, DRt` (R50), bit by bit. -/
def Obligations.OruiOrsBitwise : Prop :=
  IsMacroOf .orBits .orui ∧ EncodedI12 0b0111 .orui ∧
  ∀ (imm : Imm12) (t : RegNum) (s : State),
    (s.bankValid 0 = false → exec (.orui imm t) s = .fault (.trap .uimmState s.pc)) ∧
    (s.bankValid 0 = true → ∃ s', exec (.orui imm t) s = .next s' ∧
      (∀ k < 24, (s'.readDR t).getLsbD k = ((s.readDR t).getLsbD k || (operandNat s imm).testBit k)) ∧
      s'.z = decide ((s'.readDR t).toNat = 0) ∧
      s'.c = s.c ∧ OtherRegsKept t s s' ∧ Completed s s' ∧ NothingDrawn s s')

/-- `XORui #imm12, DRt` (R51), bit by bit. -/
def Obligations.XoruiXorsBitwise : Prop :=
  IsMacroOf .xorBits .xorui ∧ EncodedI12 0b1000 .xorui ∧
  ∀ (imm : Imm12) (t : RegNum) (s : State),
    (s.bankValid 0 = false → exec (.xorui imm t) s = .fault (.trap .uimmState s.pc)) ∧
    (s.bankValid 0 = true → ∃ s', exec (.xorui imm t) s = .next s' ∧
      (∀ k < 24, (s'.readDR t).getLsbD k = ((s.readDR t).getLsbD k ^^ (operandNat s imm).testBit k)) ∧
      s'.z = decide ((s'.readDR t).toNat = 0) ∧
      s'.c = s.c ∧ OtherRegsKept t s s' ∧ Completed s s' ∧ NothingDrawn s s')

/-- `CMPui #imm12, DRt` (`43_compare.md`): the flags of the register against the constant, no register written. The
direction and the polarity of `c` are the spec's decisions D7 and D6 (entries 12, 9). -/
def Obligations.CmpuiComparesUnsigned : Prop :=
  IsMacroOf .compU .cmpui ∧ EncodedI12 0b1101 .cmpui ∧
  ∀ (imm : Imm12) (t : RegNum) (s : State),
    (s.bankValid 0 = false → exec (.cmpui imm t) s = .fault (.trap .uimmState s.pc)) ∧
    (s.bankValid 0 = true → ∃ s', exec (.cmpui imm t) s = .next s' ∧
      s'.z = decide ((s.readDR t).toNat = operandNat s imm) ∧
      s'.c = decide ((s.readDR t).toNat < operandNat s imm) ∧
      AllRegsKept s s' ∧ Completed s s' ∧ NothingDrawn s s' ∧
      ∃ s'', exec (.subui imm t) s = .next s'' ∧ s'.z = s''.z ∧ s'.c = s''.c)

/-- `SHLui #imm5, DRt` (`42_shift_rotate.md` section 2): every amount completes; the effect of an amount of 1 to 23, with
`SHIFT_CARRY = last_bit_out`: the clause on `c` rests on the spec's decision D9 (entry 10). -/
def Obligations.ShluiShiftsLeft : Prop :=
  IsOneUop .shiftLeft .shlui ∧ EncodedI5 0b1001 .shlui ∧
  ∀ (amount : Imm5) (t : RegNum) (s : State),
    ∃ s', exec (.shlui amount t) s = .next s' ∧ OtherRegsKept t s s' ∧ Completed s s' ∧
      (1 ≤ amount.toNat → amount.toNat ≤ 23 →
        (s'.readDR t).toNat = (s.readDR t).toNat * 2 ^ amount.toNat % 2 ^ 24 ∧
        s'.z = decide ((s'.readDR t).toNat = 0) ∧
        s'.c = (s.readDR t).toNat.testBit (24 - amount.toNat) ∧ NothingDrawn s s')

/-- `SHLuiv #imm5, DRt` (`42_shift_rotate.md` section 3): an amount of 24 or more traps, any other is `SHLui`, which
completes. That the trap writes no flag is the spec's decision D16. -/
def Obligations.ShluivChecksRange : Prop :=
  IsOneUop .shiftLeftV .shluiv ∧ EncodedI5 0b1110 .shluiv ∧
  ∀ (amount : Imm5) (t : RegNum) (s : State),
    (24 ≤ amount.toNat → exec (.shluiv amount t) s = .fault (.trap .arithRange s.pc)) ∧
    (amount.toNat ≤ 23 → ∃ s', exec (.shluiv amount t) s = .next s' ∧ exec (.shlui amount t) s = .next s')

/-- `ROLui #imm5, DRt` (`42_shift_rotate.md` section 4): every amount completes; the effect of an amount of 1 to 23, with
`SHIFT_CARRY = last_bit_out`: the clauses on `c` rest on the spec's decision D9 (entry 10), and that the rotation is of
the 24 bits alone is its decision D8 (entry 13). -/
def Obligations.RoluiRotatesLeft : Prop :=
  IsOneUop .rotLeft .rolui ∧ EncodedI5 0b1010 .rolui ∧
  ∀ (amount : Imm5) (t : RegNum) (s : State),
    ∃ s', exec (.rolui amount t) s = .next s' ∧ OtherRegsKept t s s' ∧ Completed s s' ∧
      (1 ≤ amount.toNat → amount.toNat ≤ 23 →
        (s'.readDR t).toNat = ((s.readDR t).toNat * 2 ^ amount.toNat % 2 ^ 24 |||
          (s.readDR t).toNat / 2 ^ (24 - amount.toNat)) ∧
        s'.z = decide ((s'.readDR t).toNat = 0) ∧ s'.z = decide ((s.readDR t).toNat = 0) ∧
        s'.c = (s'.readDR t).getLsbD 0 ∧ s'.c = (s.readDR t).getLsbD (24 - amount.toNat) ∧ NothingDrawn s s')

/-- `SHRui #imm5, DRt` (`42_shift_rotate.md` section 5): every amount completes; the effect of an amount of 1 to 23, with
`SHIFT_CARRY = last_bit_out`: the clause on `c` rests on the spec's decision D9 (entry 10), and that zeros come in from
the top is its decision D8 (entry 13). -/
def Obligations.ShruiShiftsRight : Prop :=
  IsOneUop .shiftRight .shrui ∧ EncodedI5 0b1011 .shrui ∧
  ∀ (amount : Imm5) (t : RegNum) (s : State),
    ∃ s', exec (.shrui amount t) s = .next s' ∧ OtherRegsKept t s s' ∧ Completed s s' ∧
      (1 ≤ amount.toNat → amount.toNat ≤ 23 →
        (s'.readDR t).toNat = (s.readDR t).toNat / 2 ^ amount.toNat ∧
        s'.z = decide ((s'.readDR t).toNat = 0) ∧
        s'.c = (s.readDR t).toNat.testBit (amount.toNat - 1) ∧ NothingDrawn s s')

/-- `SHRuiv #imm5, DRt` (`42_shift_rotate.md` section 6): an amount of 24 or more traps, any other is `SHRui`, which
completes. That the trap writes no flag is the spec's decision D16. -/
def Obligations.ShruivChecksRange : Prop :=
  IsOneUop .shiftRightV .shruiv ∧ EncodedI5 0b1111 .shruiv ∧
  ∀ (amount : Imm5) (t : RegNum) (s : State),
    (24 ≤ amount.toNat → exec (.shruiv amount t) s = .fault (.trap .arithRange s.pc)) ∧
    (amount.toNat ≤ 23 → ∃ s', exec (.shruiv amount t) s = .next s' ∧ exec (.shrui amount t) s = .next s')

/-- `RORui #imm5, DRt` (`42_shift_rotate.md` section 7): every amount completes; the effect of an amount of 1 to 23, with
`SHIFT_CARRY = last_bit_out`; the register value is that of a left rotation by the rest of 24. The clauses on `c` rest on
the spec's decision D9 (entry 10), and that the rotation is of the 24 bits alone is its decision D8 (entry 13). -/
def Obligations.RoruiRotatesRight : Prop :=
  IsOneUop .rotRight .rorui ∧ EncodedI5 0b1100 .rorui ∧
  ∀ (amount : Imm5) (t : RegNum) (s : State),
    ∃ s', exec (.rorui amount t) s = .next s' ∧ OtherRegsKept t s s' ∧ Completed s s' ∧
      (1 ≤ amount.toNat → amount.toNat ≤ 23 →
        (s'.readDR t).toNat = ((s.readDR t).toNat / 2 ^ amount.toNat |||
          (s.readDR t).toNat * 2 ^ (24 - amount.toNat) % 2 ^ 24) ∧
        s'.readDR t = rotl24 (s.readDR t) (24 - amount.toNat) ∧
        s'.z = decide ((s'.readDR t).toNat = 0) ∧ s'.z = decide ((s.readDR t).toNat = 0) ∧
        s'.c = (s'.readDR t).getLsbD 23 ∧ s'.c = (s.readDR t).getLsbD (amount.toNat - 1) ∧ NothingDrawn s s')

/-- Amount 0 in all six forms (`42_shift_rotate.md` section 1): the register is kept, `z` is written from it, and `c`
is a free value. That `c` is open is the spec's decision D10 (entry 7). -/
def Obligations.ShiftByZeroKeepsRegister : Prop :=
  ∀ mk ∈ [Instr.shlui, Instr.shluiv, Instr.rolui, Instr.shrui, Instr.shruiv, Instr.rorui],
  ∀ (t : RegNum) (s : State), ∃ s', exec (mk 0#5 t) s = .next s' ∧ AllRegsKept s s' ∧
    s'.z = decide ((s.readDR t).toNat = 0) ∧ s'.c = Config.freeBit s.draws ∧ s'.draws = s.draws + 1 ∧ Completed s s'

/-- Amounts 24 to 31 in the four unchecked forms (`42_shift_rotate.md` section 1): no trap; `DR[t]`, `z` and `c` are
free values, drawn one by one, and everything else is as in any completed instruction. That they are open is the
spec's decision D11 (entry 7). -/
def Obligations.AmountsBeyondAreDrawn : Prop :=
  ∀ mk ∈ [Instr.shlui, Instr.rolui, Instr.shrui, Instr.rorui],
  ∀ (amount : Imm5) (t : RegNum) (s : State), 24 ≤ amount.toNat → ∃ s', exec (mk amount t) s = .next s' ∧
    s'.readDR t = Config.freeWord s.draws ∧ s'.z = Config.freeBit (s.draws + 1) ∧
    s'.c = Config.freeBit (s.draws + 2) ∧ s'.draws = s.draws + 3 ∧ OtherRegsKept t s s' ∧ Completed s s'

/-- A rotation loses nothing: rotating left and then right by the same amount of 1 to 23 gives the register back
(`42_shift_rotate.md` section 8); that the rotations are of the 24 bits alone is the spec's decision D8 (entry 13). -/
def Obligations.RotateLeftThenRightRestores : Prop :=
  ∀ (amount : Imm5) (t : RegNum) (s : State), 1 ≤ amount.toNat → amount.toNat ≤ 23 →
    ∃ s₁ s₂, exec (.rolui amount t) s = .next s₁ ∧ exec (.rorui amount t) s₁ = .next s₂ ∧ AllRegsKept s s₂
end

