-- ==== Sys2Proof/Laws/Decode.lean ====
section
/-!
SUPPORT. The words of the three formats as numbers, the fields of a word as numbers, and the fields of a word of
each format.
-/

namespace Sys2Proof

theorem fieldOf_toNat (w : InstrWord) (lo width : Nat) :
    (fieldOf w lo width).toNat = w.toNat / 2 ^ lo % 2 ^ width := by
  simp [fieldOf, BitVec.extractLsb'_toNat, Nat.shiftRight_eq_div_pow]

theorem wordL_toNat (x : BankNum) (imm : Imm12) :
    (wordL x imm).toNat = 0x100000 + x.toNat * 2 ^ 14 + imm.toNat := by
  have hx := x.isLt
  have hi := imm.isLt
  simp only [wordL, BitVec.toNat_append]
  rw [← Nat.shiftLeft_add_eq_or_of_lt (by omega), ← Nat.shiftLeft_add_eq_or_of_lt (by simp),
    ← Nat.shiftLeft_add_eq_or_of_lt (by omega)]
  simp [Nat.shiftLeft_eq]
  omega

theorem wordI12_toNat (s : BitVec 4) (imm : Imm12) (t : RegNum) :
    (wordI12 s imm t).toNat = 0x100000 + s.toNat * 2 ^ 16 + t.toNat * 2 ^ 12 + imm.toNat := by
  have hs := s.isLt
  have ht := t.isLt
  have hi := imm.isLt
  simp only [wordI12, BitVec.toNat_append]
  rw [← Nat.shiftLeft_add_eq_or_of_lt (by omega), ← Nat.shiftLeft_add_eq_or_of_lt (by omega),
    ← Nat.shiftLeft_add_eq_or_of_lt (by omega)]
  simp [Nat.shiftLeft_eq]
  omega

theorem wordI5_toNat (s : BitVec 4) (amount : Imm5) (t : RegNum) :
    (wordI5 s amount t).toNat = 0x100000 + s.toNat * 2 ^ 16 + t.toNat * 2 ^ 12 + amount.toNat := by
  have hs := s.isLt
  have ht := t.isLt
  have ha := amount.isLt
  simp only [wordI5, BitVec.toNat_append]
  rw [← Nat.shiftLeft_add_eq_or_of_lt (by omega), ← Nat.shiftLeft_add_eq_or_of_lt (by simp),
    ← Nat.shiftLeft_add_eq_or_of_lt (by omega), ← Nat.shiftLeft_add_eq_or_of_lt (by omega)]
  simp [Nat.shiftLeft_eq]
  omega

/-- A field of a word is `v` when the word's number, divided and reduced, is `v`'s. -/
theorem fieldOf_eq_iff (w : InstrWord) (lo width : Nat) (v : BitVec width) :
    fieldOf w lo width = v ↔ w.toNat / 2 ^ lo % 2 ^ width = v.toNat := by
  rw [← fieldOf_toNat, BitVec.toNat_inj]

@[simp] theorem wordL_opclass (x : BankNum) (imm : Imm12) : fieldOf (wordL x imm) 20 4 = 0b0001#4 := by
  have := x.isLt; have := imm.isLt; rw [fieldOf_eq_iff, wordL_toNat]; simp; omega

@[simp] theorem wordL_subop (x : BankNum) (imm : Imm12) : fieldOf (wordL x imm) 16 4 = 0b0000#4 := by
  have := x.isLt; have := imm.isLt; rw [fieldOf_eq_iff, wordL_toNat]; simp; omega

@[simp] theorem wordL_bank (x : BankNum) (imm : Imm12) : fieldOf (wordL x imm) 14 2 = x := by
  have := x.isLt; have := imm.isLt; rw [fieldOf_eq_iff, wordL_toNat]; simp; omega

@[simp] theorem wordL_reserved (x : BankNum) (imm : Imm12) : fieldOf (wordL x imm) 12 2 = 0#2 := by
  have := x.isLt; have := imm.isLt; rw [fieldOf_eq_iff, wordL_toNat]; simp; omega

@[simp] theorem wordL_imm12 (x : BankNum) (imm : Imm12) : fieldOf (wordL x imm) 0 12 = imm := by
  have := x.isLt; have := imm.isLt; rw [fieldOf_eq_iff, wordL_toNat]; simp; omega

section
variable (s : BitVec 4) (imm : Imm12) (amount : Imm5) (t : RegNum)

@[simp] theorem wordI12_opclass : fieldOf (wordI12 s imm t) 20 4 = 0b0001#4 := by
  have := s.isLt; have := t.isLt; have := imm.isLt; rw [fieldOf_eq_iff, wordI12_toNat]; simp; omega

@[simp] theorem wordI12_subop : fieldOf (wordI12 s imm t) 16 4 = s := by
  have := s.isLt; have := t.isLt; have := imm.isLt; rw [fieldOf_eq_iff, wordI12_toNat]; simp; omega

@[simp] theorem wordI12_reg : fieldOf (wordI12 s imm t) 12 4 = t := by
  have := s.isLt; have := t.isLt; have := imm.isLt; rw [fieldOf_eq_iff, wordI12_toNat]; simp; omega

@[simp] theorem wordI12_imm12 : fieldOf (wordI12 s imm t) 0 12 = imm := by
  have := s.isLt; have := t.isLt; have := imm.isLt; rw [fieldOf_eq_iff, wordI12_toNat]; simp; omega

@[simp] theorem wordI5_opclass : fieldOf (wordI5 s amount t) 20 4 = 0b0001#4 := by
  have := s.isLt; have := t.isLt; have := amount.isLt; rw [fieldOf_eq_iff, wordI5_toNat]; simp; omega

@[simp] theorem wordI5_subop : fieldOf (wordI5 s amount t) 16 4 = s := by
  have := s.isLt; have := t.isLt; have := amount.isLt; rw [fieldOf_eq_iff, wordI5_toNat]; simp; omega

@[simp] theorem wordI5_reg : fieldOf (wordI5 s amount t) 12 4 = t := by
  have := s.isLt; have := t.isLt; have := amount.isLt; rw [fieldOf_eq_iff, wordI5_toNat]; simp; omega

@[simp] theorem wordI5_reserved : fieldOf (wordI5 s amount t) 5 7 = 0#7 := by
  have := s.isLt; have := t.isLt; have := amount.isLt; rw [fieldOf_eq_iff, wordI5_toNat]; simp; omega

@[simp] theorem wordI5_imm5 : fieldOf (wordI5 s amount t) 0 5 = amount := by
  have := s.isLt; have := t.isLt; have := amount.isLt; rw [fieldOf_eq_iff, wordI5_toNat]; simp; omega

end

end Sys2Proof
end

