-- ==== Sys2Proof/Laws/State.lean ====
section
/-!
SUPPORT. What each update of the state leaves in each field: one lemma per field per update, so that no proof
unfolds a record update.
-/

namespace Sys2Proof.Machine

variable (s : State) (t u : RegNum) (w : Word) (b : Bool) (x : BankNum)

@[simp] theorem readDR_writeDR_same : (s.writeDR t w).readDR t = w := by
  simp [State.readDR, State.writeDR]

theorem readDR_writeDR_other (h : u ≠ t) : (s.writeDR t w).readDR u = s.readDR u := by
  have : t.toNat ≠ u.toNat := fun e => h (BitVec.eq_of_toNat_eq e.symm)
  simp [State.readDR, State.writeDR, this]

@[simp] theorem writeDR_z : (s.writeDR t w).z = s.z := rfl
@[simp] theorem writeDR_n : (s.writeDR t w).n = s.n := rfl
@[simp] theorem writeDR_c : (s.writeDR t w).c = s.c := rfl
@[simp] theorem writeDR_v : (s.writeDR t w).v = s.v := rfl
@[simp] theorem writeDR_uimm : (s.writeDR t w).uimm = s.uimm := rfl
@[simp] theorem writeDR_uimmValid : (s.writeDR t w).uimmValid = s.uimmValid := rfl
@[simp] theorem writeDR_pc : (s.writeDR t w).pc = s.pc := rfl
@[simp] theorem writeDR_program : (s.writeDR t w).program = s.program := rfl
@[simp] theorem writeDR_draws : (s.writeDR t w).draws = s.draws := rfl

@[simp] theorem setZ_dr : (s.setZ b).dr = s.dr := rfl
@[simp] theorem setZ_z : (s.setZ b).z = b := rfl
@[simp] theorem setZ_n : (s.setZ b).n = s.n := rfl
@[simp] theorem setZ_c : (s.setZ b).c = s.c := rfl
@[simp] theorem setZ_v : (s.setZ b).v = s.v := rfl
@[simp] theorem setZ_uimm : (s.setZ b).uimm = s.uimm := rfl
@[simp] theorem setZ_uimmValid : (s.setZ b).uimmValid = s.uimmValid := rfl
@[simp] theorem setZ_pc : (s.setZ b).pc = s.pc := rfl
@[simp] theorem setZ_program : (s.setZ b).program = s.program := rfl
@[simp] theorem setZ_draws : (s.setZ b).draws = s.draws := rfl
@[simp] theorem setZ_readDR : (s.setZ b).readDR u = s.readDR u := rfl

@[simp] theorem setC_dr : (s.setC b).dr = s.dr := rfl
@[simp] theorem setC_z : (s.setC b).z = s.z := rfl
@[simp] theorem setC_n : (s.setC b).n = s.n := rfl
@[simp] theorem setC_c : (s.setC b).c = b := rfl
@[simp] theorem setC_v : (s.setC b).v = s.v := rfl
@[simp] theorem setC_uimm : (s.setC b).uimm = s.uimm := rfl
@[simp] theorem setC_uimmValid : (s.setC b).uimmValid = s.uimmValid := rfl
@[simp] theorem setC_pc : (s.setC b).pc = s.pc := rfl
@[simp] theorem setC_program : (s.setC b).program = s.program := rfl
@[simp] theorem setC_draws : (s.setC b).draws = s.draws := rfl
@[simp] theorem setC_readDR : (s.setC b).readDR u = s.readDR u := rfl

@[simp] theorem drawC_dr : s.drawC.dr = s.dr := rfl
@[simp] theorem drawC_z : s.drawC.z = s.z := rfl
@[simp] theorem drawC_n : s.drawC.n = s.n := rfl
@[simp] theorem drawC_c : s.drawC.c = Config.freeBit s.draws := rfl
@[simp] theorem drawC_v : s.drawC.v = s.v := rfl
@[simp] theorem drawC_uimm : s.drawC.uimm = s.uimm := rfl
@[simp] theorem drawC_uimmValid : s.drawC.uimmValid = s.uimmValid := rfl
@[simp] theorem drawC_pc : s.drawC.pc = s.pc := rfl
@[simp] theorem drawC_program : s.drawC.program = s.program := rfl
@[simp] theorem drawC_draws : s.drawC.draws = s.draws + 1 := rfl
@[simp] theorem drawC_readDR : s.drawC.readDR u = s.readDR u := rfl

@[simp] theorem drawZ_dr : s.drawZ.dr = s.dr := rfl
@[simp] theorem drawZ_z : s.drawZ.z = Config.freeBit s.draws := rfl
@[simp] theorem drawZ_n : s.drawZ.n = s.n := rfl
@[simp] theorem drawZ_c : s.drawZ.c = s.c := rfl
@[simp] theorem drawZ_v : s.drawZ.v = s.v := rfl
@[simp] theorem drawZ_uimm : s.drawZ.uimm = s.uimm := rfl
@[simp] theorem drawZ_uimmValid : s.drawZ.uimmValid = s.uimmValid := rfl
@[simp] theorem drawZ_pc : s.drawZ.pc = s.pc := rfl
@[simp] theorem drawZ_program : s.drawZ.program = s.program := rfl
@[simp] theorem drawZ_draws : s.drawZ.draws = s.draws + 1 := rfl
@[simp] theorem drawZ_readDR : s.drawZ.readDR u = s.readDR u := rfl

@[simp] theorem drawDR_z : (s.drawDR t).z = s.z := rfl
@[simp] theorem drawDR_n : (s.drawDR t).n = s.n := rfl
@[simp] theorem drawDR_c : (s.drawDR t).c = s.c := rfl
@[simp] theorem drawDR_v : (s.drawDR t).v = s.v := rfl
@[simp] theorem drawDR_uimm : (s.drawDR t).uimm = s.uimm := rfl
@[simp] theorem drawDR_uimmValid : (s.drawDR t).uimmValid = s.uimmValid := rfl
@[simp] theorem drawDR_pc : (s.drawDR t).pc = s.pc := rfl
@[simp] theorem drawDR_program : (s.drawDR t).program = s.program := rfl
@[simp] theorem drawDR_draws : (s.drawDR t).draws = s.draws + 1 := rfl

@[simp] theorem advance_dr : s.advance.dr = s.dr := rfl
@[simp] theorem advance_z : s.advance.z = s.z := rfl
@[simp] theorem advance_n : s.advance.n = s.n := rfl
@[simp] theorem advance_c : s.advance.c = s.c := rfl
@[simp] theorem advance_v : s.advance.v = s.v := rfl
@[simp] theorem advance_uimm : s.advance.uimm = s.uimm := rfl
@[simp] theorem advance_uimmValid : s.advance.uimmValid = s.uimmValid := rfl
@[simp] theorem advance_pc : s.advance.pc = s.pc + 1 := rfl
@[simp] theorem advance_program : s.advance.program = s.program := rfl
@[simp] theorem advance_draws : s.advance.draws = s.draws := rfl
@[simp] theorem advance_readDR : s.advance.readDR u = s.readDR u := rfl

@[simp] theorem openWindow_dr : (s.openWindow x).dr = s.dr := rfl
@[simp] theorem openWindow_z : (s.openWindow x).z = s.z := rfl
@[simp] theorem openWindow_n : (s.openWindow x).n = s.n := rfl
@[simp] theorem openWindow_c : (s.openWindow x).c = s.c := rfl
@[simp] theorem openWindow_v : (s.openWindow x).v = s.v := rfl
@[simp] theorem openWindow_uimm : (s.openWindow x).uimm = s.uimm := rfl
@[simp] theorem openWindow_uimmValid : (s.openWindow x).uimmValid = s.uimmValid ||| (1#3 <<< x.toNat) := rfl
@[simp] theorem openWindow_pc : (s.openWindow x).pc = s.pc := rfl
@[simp] theorem openWindow_program : (s.openWindow x).program = s.program := rfl
@[simp] theorem openWindow_draws : (s.openWindow x).draws = s.draws := rfl
@[simp] theorem openWindow_readDR : (s.openWindow x).readDR u = s.readDR u := rfl

@[simp] theorem complete_dr : s.complete.dr = s.dr := rfl
@[simp] theorem complete_z : s.complete.z = s.z := rfl
@[simp] theorem complete_n : s.complete.n = s.n := rfl
@[simp] theorem complete_c : s.complete.c = s.c := rfl
@[simp] theorem complete_v : s.complete.v = s.v := rfl
@[simp] theorem complete_uimm : s.complete.uimm = s.uimm := rfl
@[simp] theorem complete_uimmValid : s.complete.uimmValid = 0b000#3 := rfl
@[simp] theorem complete_pc : s.complete.pc = s.pc + 1 := rfl
@[simp] theorem complete_program : s.complete.program = s.program := rfl
@[simp] theorem complete_draws : s.complete.draws = s.draws := rfl
@[simp] theorem complete_readDR : s.complete.readDR u = s.readDR u := rfl

/-- A draw for `DR[t]` is a write of the free value as far as the registers go. -/
@[simp] theorem drawDR_readDR : (s.drawDR t).readDR u = (s.writeDR t (Config.freeWord s.draws)).readDR u := rfl

/-! The validity of a bank after each update. -/

variable (k : Nat)

@[simp] theorem writeDR_bankValid : (s.writeDR t w).bankValid k = s.bankValid k := rfl
@[simp] theorem setZ_bankValid : (s.setZ b).bankValid k = s.bankValid k := rfl
@[simp] theorem setC_bankValid : (s.setC b).bankValid k = s.bankValid k := rfl
@[simp] theorem drawC_bankValid : s.drawC.bankValid k = s.bankValid k := rfl
@[simp] theorem drawZ_bankValid : s.drawZ.bankValid k = s.bankValid k := rfl
@[simp] theorem drawDR_bankValid : (s.drawDR t).bankValid k = s.bankValid k := rfl
@[simp] theorem advance_bankValid : s.advance.bankValid k = s.bankValid k := rfl
@[simp] theorem complete_bankValid : s.complete.bankValid k = false := by simp [State.bankValid]

/-! The host's supply: the program, and the entry point with it (R82). -/

variable (resetPc : Nat) (program : List InstrWord)

@[simp] theorem loadProgram_dr : (s.loadProgram program).dr = s.dr := rfl
@[simp] theorem loadProgram_z : (s.loadProgram program).z = s.z := rfl
@[simp] theorem loadProgram_n : (s.loadProgram program).n = s.n := rfl
@[simp] theorem loadProgram_c : (s.loadProgram program).c = s.c := rfl
@[simp] theorem loadProgram_v : (s.loadProgram program).v = s.v := rfl
@[simp] theorem loadProgram_uimm : (s.loadProgram program).uimm = s.uimm := rfl
@[simp] theorem loadProgram_uimmValid : (s.loadProgram program).uimmValid = s.uimmValid := rfl
@[simp] theorem loadProgram_pc : (s.loadProgram program).pc = s.pc := rfl
@[simp] theorem loadProgram_draws : (s.loadProgram program).draws = s.draws := rfl
@[simp] theorem loadProgram_program : (s.loadProgram program).program = program := rfl
@[simp] theorem loadProgram_readDR : (s.loadProgram program).readDR u = s.readDR u := rfl

@[simp] theorem resetAt_uimmValid : (State.resetAt resetPc).uimmValid = 0b000#3 := rfl
@[simp] theorem resetAt_pc : (State.resetAt resetPc).pc = resetPc := rfl
@[simp] theorem resetAt_program : (State.resetAt resetPc).program = [] := rfl
@[simp] theorem resetAt_draws : (State.resetAt resetPc).draws = 0 := rfl

@[simp] theorem startRun_uimmValid : (State.startRun resetPc program).uimmValid = 0b000#3 := rfl
@[simp] theorem startRun_pc : (State.startRun resetPc program).pc = resetPc := rfl
@[simp] theorem startRun_program : (State.startRun resetPc program).program = program := rfl
@[simp] theorem startRun_draws : (State.startRun resetPc program).draws = 0 := rfl

end Sys2Proof.Machine
end

