-- ==== Sys2Proof/Laws/Ops.lean ====
section
/-!
SUPPORT. One lemma for each shared operation, saying all it can do; provers cite these and unfold nothing.
-/

namespace Sys2Proof.Machine

/-- The operand as a number (R31). -/
theorem imm24_toNat (s : State) (imm : Imm12) :
    (s.imm24 imm).toNat = s.uimm.toNat % 4096 * 4096 + imm.toNat := by
  have hi := imm.isLt
  rw [State.imm24, imm24Of, BitVec.toNat_append, ← Nat.shiftLeft_add_eq_or_of_lt hi, Nat.shiftLeft_eq]
  simp [bankOf]

/-- The carry of a subtraction under the spec's setting is the borrow (R53). -/
theorem subCarry_setting (a b : Word) : subCarry Setting.subCarry a b = decide (a.toNat < b.toNat) := rfl

theorem zeroFlag_eq_decide (w : Word) : zeroFlag w = decide (w.toNat = 0) := by
  rw [zeroFlag, Bool.eq_iff_iff, beq_iff_eq, decide_eq_true_iff, ← BitVec.toNat_inj]
  rfl

theorem withImm24_of_valid {s : State} (h : s.bankValid 0 = true) (imm : Imm12) (body : Word → State) :
    withImm24 imm s body = .next (body (s.imm24 imm)).complete := by
  simp [withImm24, h]

theorem withImm24_of_stale {s : State} (h : s.bankValid 0 = false) (imm : Imm12) (body : Word → State) :
    withImm24 imm s body = .fault (.trap .uimmState s.pc) := by
  simp [withImm24, h, raiseSwi]

/-- All that the frame of the immediate instructions can answer. -/
theorem withImm24_cases (s : State) (imm : Imm12) (body : Word → State) :
    (s.bankValid 0 = true ∧ withImm24 imm s body = .next (body (s.imm24 imm)).complete) ∨
      (s.bankValid 0 = false ∧ withImm24 imm s body = .fault (.trap .uimmState s.pc)) := by
  cases h : s.bankValid 0
  · exact .inr ⟨rfl, withImm24_of_stale h imm body⟩
  · exact .inl ⟨rfl, withImm24_of_valid h imm body⟩

section
variable (kind : ShiftKind) {amount : Imm5} (t : RegNum) (s : State)

theorem shiftRotate_of_zero (h : amount.toNat = 0) :
    shiftRotate kind amount t s = .next (((s.setZ (zeroFlag (s.readDR t))).drawC).complete) := by
  simp [shiftRotate, amountOf, h, shiftByZero, Setting.shift0Carry]

theorem shiftRotate_of_within (h₀ : amount.toNat ≠ 0) (h : amount.toNat < 24) :
    shiftRotate kind amount t s = .next
      (((s.writeResult t (shiftResult kind (s.readDR t) amount.toNat)).setC
        (shiftCarryOut kind (s.readDR t) amount.toNat)).complete) := by
  simp [shiftRotate, amountOf, h₀, h, shiftWithin]

theorem shiftRotate_of_beyond (h : 24 ≤ amount.toNat) :
    shiftRotate kind amount t s = .next ((((s.drawDR t).drawZ).drawC).complete) := by
  simp [shiftRotate, amountOf, show amount.toNat ≠ 0 by omega, show ¬amount.toNat < 24 by omega, shiftBeyond,
    Setting.shiftOor]

/-- An unchecked shift or rotate always completes, and only in one of these three ways. -/
theorem shiftRotate_cases (amount : Imm5) :
    (amount.toNat = 0 ∧
        shiftRotate kind amount t s = .next (((s.setZ (zeroFlag (s.readDR t))).drawC).complete)) ∨
      (1 ≤ amount.toNat ∧ amount.toNat ≤ 23 ∧ shiftRotate kind amount t s = .next
        (((s.writeResult t (shiftResult kind (s.readDR t) amount.toNat)).setC
          (shiftCarryOut kind (s.readDR t) amount.toNat)).complete)) ∨
      (24 ≤ amount.toNat ∧ shiftRotate kind amount t s = .next ((((s.drawDR t).drawZ).drawC).complete)) := by
  by_cases h₀ : amount.toNat = 0
  · exact .inl ⟨h₀, shiftRotate_of_zero kind t s h₀⟩
  · by_cases h : amount.toNat < 24
    · exact .inr (.inl ⟨by omega, by omega, shiftRotate_of_within kind t s h₀ h⟩)
    · exact .inr (.inr ⟨by omega, shiftRotate_of_beyond kind t s (by omega)⟩)

theorem checkedShift_of_range (h : amount.toNat < 24) :
    checkedShift kind amount t s = shiftRotate kind amount t s := by
  rw [checkedShift, amountOf, if_neg (Nat.not_le.mpr h)]

theorem checkedShift_of_beyond (h : 24 ≤ amount.toNat) :
    checkedShift kind amount t s = .fault (.trap .arithRange s.pc) := by
  simp [checkedShift, amountOf, h, raiseSwi]

end

/-- Bank `k` of `uimm` as a number (R13). -/
theorem bankOf_toNat (u : Uimm) (k : Nat) : (bankOf u k).toNat = u.toNat / 2 ^ (12 * k) % 4096 := by
  simp [bankOf, BitVec.extractLsb'_toNat, Nat.shiftRight_eq_div_pow]

/-- `uimm` with one bank written, as a number (R13, R40). -/
theorem withBank_toNat (u : Uimm) (imm : Imm12) :
    (withBank u 0#2 imm).toNat = u.toNat / 4096 * 4096 + imm.toNat ∧
      (withBank u 1#2 imm).toNat = u.toNat / 16777216 * 16777216 + imm.toNat * 4096 + u.toNat % 4096 ∧
      (withBank u 2#2 imm).toNat = imm.toNat * 16777216 + u.toNat % 16777216 := by
  have hi := imm.isLt
  have hu := u.isLt
  refine ⟨?_, ?_, ?_⟩
  · simp only [withBank, BitVec.toNat_append, BitVec.extractLsb'_toNat]
    rw [← Nat.shiftLeft_add_eq_or_of_lt (by omega)]
    simp only [Nat.shiftLeft_eq, Nat.shiftRight_eq_div_pow]
    omega
  · simp only [withBank, BitVec.toNat_append, BitVec.extractLsb'_toNat]
    rw [← Nat.shiftLeft_add_eq_or_of_lt (by omega), ← Nat.shiftLeft_add_eq_or_of_lt (by omega)]
    simp only [Nat.shiftLeft_eq, Nat.shiftRight_eq_div_pow]
    omega
  · simp only [withBank, BitVec.toNat_append, BitVec.extractLsb'_toNat]
    rw [← Nat.shiftLeft_add_eq_or_of_lt (by omega)]
    simp only [Nat.shiftLeft_eq, Nat.shiftRight_eq_div_pow]
    omega

/-- A bank number other than 3 names one of the three banks (R40). -/
theorem bankNum_cases {x : BankNum} (hx : x ≠ 3#2) : x = 0#2 ∨ x = 1#2 ∨ x = 2#2 := by
  have hlt := x.isLt
  have h3 : x.toNat ≠ 3 := fun e => hx (BitVec.eq_of_toNat_eq e)
  rcases (by omega : x.toNat = 0 ∨ x.toNat = 1 ∨ x.toNat = 2) with h | h | h
  · exact .inl (BitVec.eq_of_toNat_eq h)
  · exact .inr (.inl (BitVec.eq_of_toNat_eq h))
  · exact .inr (.inr (BitVec.eq_of_toNat_eq h))

/-- Writing one of the three banks: that bank takes the immediate and the others keep their bits (R13, R40). -/
theorem bankOf_withBank (u : Uimm) {x : BankNum} (hx : x ≠ 3#2) (imm : Imm12) {k : Nat} (hk : k < 3) :
    bankOf (withBank u x imm) k = if k = x.toNat then imm else bankOf u k := by
  have hi := imm.isLt
  have hk' : k = 0 ∨ k = 1 ∨ k = 2 := by omega
  obtain ⟨h0, h1, h2⟩ := withBank_toNat u imm
  rcases bankNum_cases hx with rfl | rfl | rfl <;> rcases hk' with rfl | rfl | rfl <;>
    (apply BitVec.eq_of_toNat_eq; simp [bankOf_toNat, h0, h1, h2]) <;> clear hx hk h0 h1 h2 <;> omega

/-- The validity bits after `LUIui #x` (R41). -/
theorem openWindow_bankValid (s : State) {x : BankNum} (hx : x ≠ 3#2) {k : Nat} (hk : k < 3) :
    (s.openWindow x).bankValid k = (decide (k = x.toNat) || s.bankValid k) := by
  have hk' : k = 0 ∨ k = 1 ∨ k = 2 := by omega
  rcases bankNum_cases hx with rfl | rfl | rfl <;> rcases hk' with rfl | rfl | rfl <;> simp [State.bankValid]

/-- A placed word is where it was placed, and the words before it are kept. -/
theorem placeWord_getElem?_same (program : List InstrWord) (k : Nat) (w : InstrWord) :
    (placeWord program k w)[k]? = some w := by
  induction k generalizing program with
  | zero => cases program <;> simp [placeWord]
  | succ k ih => cases program <;> simp [placeWord, ih]

end Sys2Proof.Machine
end

