-- ==== Sys2Proof/Laws/Exec.lean ====
section
/-!
SUPPORT. What an instruction and a step can answer: the cases every statement about all instructions splits into.
-/

namespace Sys2Proof.Machine

open Sys2Proof.Safety

/-- A body of `b.complete` keeps everything but registers, `z`, `c` and the count of draws. -/
abbrev KeepsRest (b s : State) : Prop :=
  b.n = s.n ∧ b.v = s.v ∧ b.uimm = s.uimm ∧ b.pc = s.pc ∧ b.program = s.program

/-! The meaning of each instruction over the shared operations. -/

section
variable (imm : Imm12) (amount : Imm5) (t : RegNum) (s : State)

theorem exec_movui : exec (.movui imm t) s = withImm24 imm s fun b => s.writeResult t b := rfl

theorem exec_addui : exec (.addui imm t) s =
    withImm24 imm s fun b => (s.writeResult t (s.readDR t + b)).setC (addCarry (s.readDR t) b) := rfl

theorem exec_subui : exec (.subui imm t) s =
    withImm24 imm s fun b =>
      (s.writeResult t (s.readDR t - b)).setC (subCarry Setting.subCarry (s.readDR t) b) := rfl

theorem exec_andui : exec (.andui imm t) s = withImm24 imm s fun b => s.writeResult t (s.readDR t &&& b) := rfl

theorem exec_orui : exec (.orui imm t) s = withImm24 imm s fun b => s.writeResult t (s.readDR t ||| b) := rfl

theorem exec_xorui : exec (.xorui imm t) s = withImm24 imm s fun b => s.writeResult t (s.readDR t ^^^ b) := rfl

theorem exec_cmpui : exec (.cmpui imm t) s =
    withImm24 imm s fun b =>
      (s.setZ (zeroFlag (s.readDR t - b))).setC (subCarry Setting.subCarry (s.readDR t) b) := rfl

theorem exec_shlui : exec (.shlui amount t) s = shiftRotate .left amount t s := rfl

theorem exec_shluiv : exec (.shluiv amount t) s = checkedShift .left amount t s := rfl

theorem exec_rolui : exec (.rolui amount t) s = shiftRotate .rotLeft amount t s := rfl

theorem exec_shrui : exec (.shrui amount t) s = shiftRotate .right amount t s := rfl

theorem exec_shruiv : exec (.shruiv amount t) s = checkedShift .right amount t s := rfl

theorem exec_rorui : exec (.rorui amount t) s = shiftRotate .rotRight amount t s := rfl

end

/-- Each of the seven instructions that read bank 0 is the shared frame around its own writes. -/
theorem exec_of_readsBank0 {i : Instr} (h : readsBank0 i = true) (s : State) :
    ∃ imm body, exec i s = withImm24 imm s body ∧ ∀ b, KeepsRest (body b) s ∧ (body b).draws = s.draws := by
  cases i <;> simp only [readsBank0, Bool.false_eq_true] at h
  case movui imm t => exact ⟨_, _, exec_movui imm t s, fun _ => ⟨⟨rfl, rfl, rfl, rfl, rfl⟩, rfl⟩⟩
  case addui imm t => exact ⟨_, _, exec_addui imm t s, fun _ => ⟨⟨rfl, rfl, rfl, rfl, rfl⟩, rfl⟩⟩
  case subui imm t => exact ⟨_, _, exec_subui imm t s, fun _ => ⟨⟨rfl, rfl, rfl, rfl, rfl⟩, rfl⟩⟩
  case andui imm t => exact ⟨_, _, exec_andui imm t s, fun _ => ⟨⟨rfl, rfl, rfl, rfl, rfl⟩, rfl⟩⟩
  case orui imm t => exact ⟨_, _, exec_orui imm t s, fun _ => ⟨⟨rfl, rfl, rfl, rfl, rfl⟩, rfl⟩⟩
  case xorui imm t => exact ⟨_, _, exec_xorui imm t s, fun _ => ⟨⟨rfl, rfl, rfl, rfl, rfl⟩, rfl⟩⟩
  case cmpui imm t => exact ⟨_, _, exec_cmpui imm t s, fun _ => ⟨⟨rfl, rfl, rfl, rfl, rfl⟩, rfl⟩⟩

/-- An unchecked shift or rotate completes. -/
theorem shiftRotate_completes (kind : ShiftKind) (amount : Imm5) (t : RegNum) (s : State) :
    ∃ b : State, shiftRotate kind amount t s = .next b.complete ∧ KeepsRest b s := by
  rcases shiftRotate_cases kind t s amount with ⟨_, h⟩ | ⟨_, _, h⟩ | ⟨_, h⟩ <;> exact ⟨_, h, rfl, rfl, rfl, rfl, rfl⟩

/-- A checked shift completes below 24 and raises `ARITH_RANGE` from 24 on. -/
theorem checkedShift_cases (kind : ShiftKind) (amount : Imm5) (t : RegNum) (s : State) :
    (∃ b : State, checkedShift kind amount t s = .next b.complete ∧ amount.toNat < 24 ∧ KeepsRest b s) ∨
      (checkedShift kind amount t s = .fault (.trap .arithRange s.pc) ∧ 24 ≤ amount.toNat) := by
  by_cases ha : amount.toNat < 24
  · obtain ⟨b, hb, r⟩ := shiftRotate_completes kind amount t s
    exact .inl ⟨b, by rw [checkedShift_of_range kind t s ha, hb], ha, r⟩
  · exact .inr ⟨checkedShift_of_beyond kind t s (by omega), by omega⟩

/-- All that the six shift and rotate instructions can answer. -/
theorem exec_of_shift {i : Instr} (h : readsBank0 i = false) (hl : isLuiui i = false) (s : State) :
    (∃ b : State, exec i s = .next b.complete ∧ outOfCheckedRange i = false ∧ KeepsRest b s) ∨
      (exec i s = .fault (.trap .arithRange s.pc) ∧ outOfCheckedRange i = true) := by
  cases i <;> simp only [readsBank0, isLuiui, Bool.true_eq_false] at h hl
  case shlui a t =>
    obtain ⟨b, hb, r⟩ := shiftRotate_completes .left a t s
    exact .inl ⟨b, hb, rfl, r⟩
  case rolui a t =>
    obtain ⟨b, hb, r⟩ := shiftRotate_completes .rotLeft a t s
    exact .inl ⟨b, hb, rfl, r⟩
  case shrui a t =>
    obtain ⟨b, hb, r⟩ := shiftRotate_completes .right a t s
    exact .inl ⟨b, hb, rfl, r⟩
  case rorui a t =>
    obtain ⟨b, hb, r⟩ := shiftRotate_completes .rotRight a t s
    exact .inl ⟨b, hb, rfl, r⟩
  case shluiv a t =>
    rcases checkedShift_cases .left a t s with ⟨b, hb, hn, r⟩ | ⟨h, hn⟩
    · exact .inl ⟨b, hb, decide_eq_false (by omega), r⟩
    · exact .inr ⟨h, decide_eq_true hn⟩
  case shruiv a t =>
    rcases checkedShift_cases .right a t s with ⟨b, hb, hn, r⟩ | ⟨h, hn⟩
    · exact .inl ⟨b, hb, decide_eq_false (by omega), r⟩
    · exact .inr ⟨h, decide_eq_true hn⟩

/-- The next state of `LUIui` (R40). -/
theorem exec_luiui {x : BankNum} (hx : x ≠ 3#2) (imm : Imm12) (s : State) :
    exec (.luiui x imm) s = .next ({ s with uimm := withBank s.uimm x imm }.openWindow x).advance := by
  simp [exec, execLuiui, hx]

/-- `LUIui` with `x = 3` is refused (R44). -/
theorem exec_luiui_bank3 (imm : Imm12) (s : State) :
    exec (.luiui 3#2 imm) s = .refused (.noMeaning .luiuiBank3 s.pc) := by
  simp [exec, execLuiui, refuseWord]

/-- All that a completed instruction can be: `LUIui`, or one that ends in `complete`. -/
theorem exec_next_cases {i : Instr} {s s' : State} (h : exec i s = .next s') :
    (∃ x imm, i = .luiui x imm ∧ x ≠ 3#2 ∧
        s' = ({ s with uimm := withBank s.uimm x imm }.openWindow x).advance) ∨
      (isLuiui i = false ∧ (readsBank0 i = true → s.bankValid 0 = true) ∧ outOfCheckedRange i = false ∧
        ∃ b : State, s' = b.complete ∧ KeepsRest b s) := by
  cases hl : isLuiui i
  · right
    refine ⟨rfl, ?_⟩
    cases hr : readsBank0 i
    · rcases exec_of_shift hr hl s with ⟨b, hb, r⟩ | ⟨hb, _⟩
      · rw [h] at hb
        cases hb
        exact ⟨by simp, r.1, b, rfl, r.2⟩
      · rw [h] at hb
        cases hb
    · obtain ⟨imm, body, he, hb⟩ := exec_of_readsBank0 hr s
      have ho : outOfCheckedRange i = false := by
        cases i <;> first | rfl | simp [readsBank0] at hr
      rw [he] at h
      rcases withImm24_cases s imm body with ⟨hv, e⟩ | ⟨_, e⟩
      · rw [e] at h
        cases h
        exact ⟨fun _ => hv, ho, _, rfl, (hb _).1⟩
      · rw [e] at h
        cases h
  · left
    cases i <;> simp only [isLuiui, Bool.false_eq_true] at hl
    rename_i x imm
    by_cases hx : x = 3#2
    · subst hx
      rw [exec_luiui_bank3] at h
      cases h
    · rw [exec_luiui hx] at h
      cases h
      exact ⟨x, imm, rfl, hx, rfl⟩

/-- A step that completes fetched a word, decoded it to an instruction, and ran it. -/
theorem step_next_cases {s s' : State} (h : step s = .next s') :
    ∃ w i, s.program[s.pc]? = some w ∧ decode w = .ok i ∧ exec i s = .next s' := by
  unfold step State.fetch at h
  split at h
  · rename_i w hw
    split at h
    · exact ⟨w, _, hw, by assumption, h⟩
    · cases h
  · split at h <;> cases h

end Sys2Proof.Machine
end

