-- ==== Sys2Proof/Laws/PerInstr.lean ====
section
/-!
SUPPORT. Statements about every instruction as syntax, one lemma per constructor.
-/

namespace Sys2Proof.Laws.EncodedOpclass

/-- The word of an instruction has opclass `0001` in bits [23-20] (R27). -/
def Statement (i : Instr) : Prop := fieldOf (encode i) 20 4 = 0b0001#4

theorem luiui (x : BankNum) (imm : Imm12) : Statement (.luiui x imm) := wordL_opclass x imm

theorem movui (imm : Imm12) (t : RegNum) : Statement (.movui imm t) := wordI12_opclass _ imm t

theorem addui (imm : Imm12) (t : RegNum) : Statement (.addui imm t) := wordI12_opclass _ imm t

theorem subui (imm : Imm12) (t : RegNum) : Statement (.subui imm t) := wordI12_opclass _ imm t

theorem andui (imm : Imm12) (t : RegNum) : Statement (.andui imm t) := wordI12_opclass _ imm t

theorem orui (imm : Imm12) (t : RegNum) : Statement (.orui imm t) := wordI12_opclass _ imm t

theorem xorui (imm : Imm12) (t : RegNum) : Statement (.xorui imm t) := wordI12_opclass _ imm t

theorem shlui (amount : Imm5) (t : RegNum) : Statement (.shlui amount t) := wordI5_opclass _ amount t

theorem shluiv (amount : Imm5) (t : RegNum) : Statement (.shluiv amount t) := wordI5_opclass _ amount t

theorem rolui (amount : Imm5) (t : RegNum) : Statement (.rolui amount t) := wordI5_opclass _ amount t

theorem shrui (amount : Imm5) (t : RegNum) : Statement (.shrui amount t) := wordI5_opclass _ amount t

theorem shruiv (amount : Imm5) (t : RegNum) : Statement (.shruiv amount t) := wordI5_opclass _ amount t

theorem rorui (amount : Imm5) (t : RegNum) : Statement (.rorui amount t) := wordI5_opclass _ amount t

theorem cmpui (imm : Imm12) (t : RegNum) : Statement (.cmpui imm t) := wordI12_opclass _ imm t

end Sys2Proof.Laws.EncodedOpclass
end

