-- ==== Sys2Proof/Tests/Slice0.lean ====
section
/-!
SUPPORT. Tests of the model, and for each obligation with hypotheses a concrete case that meets them. Expected
values come from `95_test_vectors.md` or from the rule a test names, never from the model.
-/

namespace Sys2Proof.Tests

open Sys2Proof.Machine Sys2Proof.Safety

/-! Words written out field by field from the format tables (R28 to R30, R33). -/

theorem test_decode_luiui : decode 0b0001_0000_10_00_111111111111#24 = .ok (.luiui 2 0xFFF) := by decide

theorem test_decode_movui : decode 0b0001_0001_0001_111111111111#24 = .ok (.movui 0xFFF 1) := by decide

theorem test_decode_addui : decode 0b0001_0011_0001_000000000001#24 = .ok (.addui 1 1) := by decide

theorem test_decode_subui : decode 0b0001_0100_0001_000000000111#24 = .ok (.subui 7 1) := by decide

theorem test_decode_andui : decode 0b0001_0110_0010_111100000000#24 = .ok (.andui 0xF00 2) := by decide

theorem test_decode_orui : decode 0b0001_0111_0001_000000001011#24 = .ok (.orui 0xB 1) := by decide

theorem test_decode_xorui : decode 0b0001_1000_0001_110111101111#24 = .ok (.xorui 0xDEF 1) := by decide

theorem test_decode_shlui : decode 0b0001_1001_1111_0000000_11111#24 = .ok (.shlui 31 15) := by decide

theorem test_decode_shluiv : decode 0b0001_1110_0011_0000000_11000#24 = .ok (.shluiv 24 3) := by decide

theorem test_decode_rolui : decode 0b0001_1010_0100_0000000_00001#24 = .ok (.rolui 1 4) := by decide

theorem test_decode_shrui : decode 0b0001_1011_0010_0000000_01000#24 = .ok (.shrui 8 2) := by decide

theorem test_decode_shruiv : decode 0b0001_1111_0000_0000000_11111#24 = .ok (.shruiv 31 0) := by decide

theorem test_decode_rorui : decode 0b0001_1100_0100_0000000_00010#24 = .ok (.rorui 2 4) := by decide

theorem test_decode_cmpui : decode 0b0001_1101_1111_111111111111#24 = .ok (.cmpui 0xFFF 15) := by decide

/-- The words of `95_test_vectors.md` section 2.1 that decode to no instruction. -/
theorem test_decode_refuses :
    decode 0x10C000#24 = .error .luiuiBank3 ∧ decode 0x101000#24 = .error .luiuiReservedBits ∧
      decode 0x10D000#24 = .error .luiuiReservedBits ∧ decode 0x12FFFF#24 = .error .unassignedSubop ∧
      decode 0x150000#24 = .error .unassignedSubop ∧ decode 0x191020#24 = .error .i5ReservedBits ∧
      decode 0x1FFFFF#24 = .error .i5ReservedBits ∧ decode 0x000000#24 = .error .otherOpclass ∧
      decode 0xFFFFFF#24 = .error .otherOpclass := by decide

/-- WellFormed refuses `LUIui` with `x = 3`, and its word is no instruction (R34, R44). -/
theorem test_bank3_is_ill_formed :
    (Instr.luiui 3 0xABC).wellFormed = false ∧ (Instr.luiui 2 0xABC).wellFormed = true ∧
      decode (encode (.luiui 3 0xABC)) = .error .luiuiBank3 := by decide

/-! One step of each instruction. -/

/-- `DR1` holds `v`, bank 0 holds `hi` and is valid, and `c` is set. -/
def ready (hi : Imm12) (v : Word) : State :=
  { State.reset.writeDR 1 v with uimm := hi.setWidth 36, uimmValid := 0b001#3, c := true }

/-- `DR1`, `z` and `c` after an instruction that completes. -/
def seen (o : StepOutcome) : Option (Word × Bool × Bool) :=
  match o with
  | .next s => some (s.readDR 1, s.z, s.c)
  | .fault _ => none
  | .refused _ => none

/-- The value of `DR1` and `z` alone, where `c` is open. -/
def seenNoCarry (o : StepOutcome) : Option (Word × Bool) := (seen o).map fun r => (r.1, r.2.1)

/-- `uimm`, its validity bits and `pc`. -/
def seenUimm (o : StepOutcome) : Option (Uimm × UimmValid × Nat) :=
  match o with
  | .next s => some (s.uimm, s.uimmValid, s.pc)
  | .fault _ => none
  | .refused _ => none

/-- The fault of an instruction that raises one. -/
def seenFault (o : StepOutcome) : Option Fault :=
  match o with
  | .next _ => none
  | .fault f => some f
  | .refused _ => none

theorem test_luiui_bank1 : seenUimm (exec (.luiui 1 0x123) (ready 0x456 0)) = some (0x123456, 0b011#3, 1) := by decide

theorem test_luiui_bank2 : seenUimm (exec (.luiui 2 0xFFF) State.reset) = some (0xFFF000000, 0b100#3, 1) := by decide

theorem test_movui : seen (exec (.movui 0xDEF 1) (ready 0xABC 0)) = some (0xABCDEF, false, true) := by decide

theorem test_movui_closes_window :
    seenUimm (exec (.movui 0xDEF 1) (ready 0xABC 0)) = some (0xABC, 0b000#3, 1) := by decide

theorem test_addui_wraps : seen (exec (.addui 0 1) (ready 0x800 0x800000)) = some (0, true, true) := by decide

theorem test_addui : seen (exec (.addui 0x321 1) (ready 0x654 0x123456)) = some (0x777777, false, false) := by decide

theorem test_subui_borrows : seen (exec (.subui 7 1) (ready 0 5)) = some (0xFFFFFE, false, true) := by decide

theorem test_subui_to_zero : seen (exec (.subui 5 1) (ready 0 5)) = some (0, true, false) := by decide

theorem test_andui : seen (exec (.andui 0xF00 1) (ready 0x00F 0xABCDEF)) = some (0x00CD00, false, true) := by decide

theorem test_andui_zero : seen (exec (.andui 0xF0F 1) (ready 0x0F0 0xF0F0F0)) = some (0, true, true) := by decide

theorem test_orui : seen (exec (.orui 0x00B 1) (ready 0 0xA00000)) = some (0xA0000B, false, true) := by decide

theorem test_orui_zero : seen (exec (.orui 0 1) (ready 0 0)) = some (0, true, true) := by decide

theorem test_xorui : seen (exec (.xorui 0xFFF 1) (ready 0xFFF 0xABCDEF)) = some (0x543210, false, true) := by decide

theorem test_xorui_zero : seen (exec (.xorui 0xDEF 1) (ready 0xABC 0xABCDEF)) = some (0, true, true) := by decide

theorem test_cmpui_below : seen (exec (.cmpui 0xFFF 1) (ready 0xFFF 0)) = some (0, false, true) := by decide

theorem test_cmpui_unsigned :
    seen (exec (.cmpui 0xFFF 1) (ready 0x7FF 0x800000)) = some (0x800000, false, false) := by decide

theorem test_shlui : seen (exec (.shlui 23 1) (ready 0 0x000003)) = some (0x800000, false, true) := by decide

theorem test_shlui_by_zero : seenNoCarry (exec (.shlui 0 1) (ready 0 0xABCDEF)) = some (0xABCDEF, false) := by decide

theorem test_shluiv : seen (exec (.shluiv 23 1) (ready 0 0x000001)) = some (0x800000, false, false) := by decide

theorem test_shluiv_traps :
    seenFault (exec (.shluiv 24 1) (ready 0 0xABCDEF)) = some (.trap .arithRange 0) := by decide

theorem test_rolui : seen (exec (.rolui 1 1) (ready 0 0x800001)) = some (0x000003, false, true) := by decide

theorem test_rolui_12 : seen (exec (.rolui 12 1) (ready 0 0xABCDEF)) = some (0xDEFABC, false, false) := by decide

theorem test_shrui : seen (exec (.shrui 4 1) (ready 0 0xABCDEF)) = some (0x0ABCDE, false, true) := by decide

theorem test_shrui_logical : seen (exec (.shrui 1 1) (ready 0 0x800000)) = some (0x400000, false, false) := by decide

theorem test_shruiv : seen (exec (.shruiv 23 1) (ready 0 0x800000)) = some (0x000001, false, false) := by decide

theorem test_shruiv_traps :
    seenFault (exec (.shruiv 31 1) (ready 0 0xABCDEF)) = some (.trap .arithRange 0) := by decide

theorem test_rorui : seen (exec (.rorui 2 1) (ready 0 0x000003)) = some (0xC00000, false, true) := by decide

theorem test_rorui_12 : seen (exec (.rorui 12 1) (ready 0 0xABCDEF)) = some (0xDEFABC, false, true) := by decide

/-- The other settings of the parameters the spec names (R53, R42). -/
theorem test_other_settings :
    subCarry .notBorrow 5 7 = false ∧ subCarry .notBorrow 7 5 = true ∧
      ((ready 0 0).closeWindow .sticky).uimmValid = 0b001#3 := by decide

/-! Assembly (R37, R38). -/

theorem test_uop_text : uopText (disassemble (.luiui 0 0xABC)) = "LUIui #0, #2748" := by decide

theorem test_isa_text : isaLineText ⟨.shiftLeftV, [23], some 3⟩ = "shift_left.v 23, d3" := by decide

theorem test_assemble_program :
    assembleProgram [⟨.copyU, [0xABCDEF], some 2⟩, ⟨.andBits, [0x00FF00], some 2⟩, ⟨.shiftRight, [8], some 2⟩] =
      some [0x100ABC, 0x112DEF, 0x10000F, 0x162F00, 0x1B2008] := by decide

theorem test_assembler_rejects :
    assembleUop ⟨.LUIui, [3, 0], none⟩ = none ∧ assembleUop ⟨.ADDui, [4096], some 1⟩ = none ∧
      assembleUop ⟨.SHLui, [32], some 1⟩ = none ∧ assembleIsa ⟨.addU, [16777216], some 1⟩ = none ∧
      assembleIsa ⟨.addU, [0], some 16⟩ = none := by decide

/-! A case for each obligation with hypotheses. -/

/-- `LUIui #0, #0x123` then `MOVui #1, DR6`, after the first. -/
def inWindow : State :=
  { State.reset with program := [0x100123, 0x116001], pc := 1, uimm := 0x123, uimmValid := 0b001#3 }

/-- The step of an outcome completed. -/
def completed (o : StepOutcome) : Bool := match o with | .next _ => true | .fault _ => false | .refused _ => false

/-- A program of one word, at reset. -/
def oneWord (w : InstrWord) : State := State.reset.loadProgram [w]

theorem witness_round_trip : (Instr.cmpui 0xFFF 15).wellFormed = true ∧ (Instr.luiui 2 0xFFF).wellFormed = true := by
  decide

theorem witness_format_places :
    (2#2 : BankNum) ≠ 3#2 ∧ (0x108FFF#24).toNat = 1 * 2 ^ 20 + 2 * 2 ^ 14 + 0xFFF ∧
      (0x1DFFFF#24).toNat = 1 * 2 ^ 20 + 13 * 2 ^ 16 + 15 * 2 ^ 12 + 0xFFF ∧
      (0x1FF01F#24).toNat = 1 * 2 ^ 20 + 15 * 2 ^ 16 + 15 * 2 ^ 12 + 31 := by decide

theorem witness_opcode_map :
    (⟨.LUIui, 0x100000#24, 0xFF3000#24⟩ : OpcodeRow) ∈ opcodeRows ∧
      (⟨.LUIui, 0x100000#24, 0xFF3000#24⟩ : OpcodeRow).matchesWord 0x108FFF = true ∧
      (⟨.LUIui, 0x100000#24, 0xFF3000#24⟩ : OpcodeRow).matchesWord 0x10C000 = false := by decide

theorem witness_words_without_meaning :
    (oneWord 0x200000).program[(oneWord 0x200000).pc]? = some 0x200000#24 ∧ (0x200000#24).toNat / 2 ^ 20 ≠ 1 ∧
      (0x12FFFF#24).toNat / 2 ^ 16 = 0x12 ∧ (0x150000#24).toNat / 2 ^ 16 = 0x15 ∧
      (0x10D000#24).toNat / 2 ^ 16 = 0x10 ∧ (0x10D000#24).toNat / 2 ^ 12 % 4 ≠ 0 ∧
      (0x10CFFF#24).toNat / 2 ^ 12 = 0x10C ∧ (0x191020#24).toNat / 2 ^ 5 % 128 ≠ 0 ∧
      (0x1F0FE0#24).toNat / 2 ^ 16 ∈ [0x19, 0x1A, 0x1B, 0x1C, 0x1E, 0x1F] := by decide

theorem witness_uop_lines :
    assembleUop ⟨.RORui, [31], some 15⟩ = some (.rorui 31 15) ∧
      assembleUop ⟨.LUIui, [2, 4095], none⟩ = some (.luiui 2 0xFFF) := by decide

theorem witness_macro_pair :
    assembleIsa ⟨.copyU, [0xABCDEF], some 2⟩ = some [.luiui 0 0xABC, .movui 0xDEF 2] ∧
      (State.reset.loadProgram [0x100ABC, 0x112DEF]).program[0]? = some (encode (.luiui 0 0xABC)) ∧
      (State.reset.loadProgram [0x100ABC, 0x112DEF]).program[1]? = some (encode (.movui 0xDEF 2)) := by decide

theorem witness_step_runs :
    (oneWord 0x1A1001).program[(oneWord 0x1A1001).pc]? = some 0x1A1001#24 ∧ decode 0x1A1001 = .ok (.rolui 1 1) := by
  decide

theorem witness_step_outcomes :
    (oneWord 0).pc < (oneWord 0).program.length ∧ State.reset.pc = State.reset.program.length ∧
      State.reset.program.length < State.reset.advance.pc := by decide

theorem witness_step_completes : completed (step (oneWord 0x108FFF)) = true ∧ completed (step inWindow) = true := by
  decide

theorem witness_pc_in_program : PcInProgram (oneWord 0x1A1001) ∧ PcInProgram State.reset := by
  unfold PcInProgram; decide

theorem witness_after_reset :
    AfterReset 0 (State.reset.writeDR 3 0xABCDEF) ∧ AfterReset 7 ((State.resetAt 7).writeDR 3 0xABCDEF) ∧
      readsBank0 (.cmpui 0 3) = true := by unfold AfterReset; decide

theorem test_reset_default : State.reset.pc = 0 ∧ (State.resetAt 7).pc = 7 ∧ (State.resetAt 7).uimmValid = 0b000#3 := by
  decide

/-- R19, R82: with `RESET_PC = 1` the run begins at the second word, and the first is not run. -/
theorem test_run_starts_at_reset_pc :
    seenUimm (step (State.startRun 1 [0x100111, 0x104222])) = some (0x222000, 0b010#3, 2) := by decide

/-- One witness for each clause on the first step after reset: a word with a meaning, a word without, the end of the
program, and beyond it. -/
theorem witness_run_starts_at_reset_pc :
    (AfterReset 1 (State.startRun 1 [0, 0x19F01F]) ∧ (State.startRun 1 [0, 0x19F01F]).program[1]? = some 0x19F01F ∧
      decode 0x19F01F = .ok (.shlui 31 15)) ∧
    (AfterReset 0 (State.startRun 0 [0, 0x19F01F]) ∧ (State.startRun 0 [0, 0x19F01F]).program[0]? = some 0 ∧
      decode 0 = .error .otherOpclass) ∧
    (AfterReset 2 (State.startRun 2 [0, 0]) ∧ (State.startRun 2 [0, 0]).program.length = 2) ∧
    (AfterReset 3 (State.startRun 3 [0, 0]) ∧ (State.startRun 3 [0, 0]).program.length < 3) := by
  unfold AfterReset; decide

theorem witness_window_opens_and_closes :
    completed (exec (.luiui 2 0) (ready 0 0)) = true ∧ completed (exec (.shlui 31 1) (ready 0 0)) = true ∧
      isLuiui (.shlui 31 1) = false := by decide

theorem witness_window_invariant :
    WindowMatchesProgram inWindow ∧ decode 0x116001 = .ok (.movui 1 6) ∧ readsBank0 (.movui 1 6) = true ∧
      completed (step inWindow) = true := by unfold WindowMatchesProgram; decide

theorem witness_only_bank0_validity : (0b111#3).getLsbD 0 = (ready 0 0).bankValid 0 ∧ isLuiui (.orui 0 1) = false := by
  decide

theorem witness_uimm_banks :
    completed (exec (.orui 0 1) (ready 0 0)) = true ∧ readsBank0 (.orui 0 1) = true ∧
      (0xABC000456#36).toNat % 4096 = (ready 0x456 0).uimm.toNat % 4096 := by decide

theorem witness_other_registers : regOf (.addui 0 1) ≠ some 15 ∧ regOf (.luiui 0 0) ≠ some 0 := by decide

theorem witness_instruction_completes :
    completed (exec (.cmpui 0 1) (ready 0 0)) = true ∧ completed (exec (.rorui 31 15) State.reset) = true := by decide

theorem witness_nothing_open :
    leavesOpen (.shlui 1 1) = false ∧ leavesOpen (.shlui 23 1) = false ∧ leavesOpen (.shluiv 24 1) = false ∧
      leavesOpen (.addui 0 1) = false := by decide

theorem witness_bank0_valid_and_stale : (ready 0 0).bankValid 0 = true ∧ State.reset.bankValid 0 = false := by decide

theorem witness_amounts :
    1 ≤ (1#5 : Imm5).toNat ∧ (23#5 : Imm5).toNat ≤ 23 ∧ 24 ≤ (24#5 : Imm5).toNat ∧ 24 ≤ (31#5 : Imm5).toNat := by decide

theorem witness_amount_beyond_completes :
    completed (exec (.shlui 24 1) (ready 0 0)) = true ∧ completed (exec (.rolui 31 1) (ready 0 0)) = true := by decide

/-! The names the host asks for. -/

theorem test_table_word : decodeTableWord 24 0x131001 = some (.addui 1 1) ∧ decodeTableWord 24 0x120000 = none := by
  decide

theorem test_fetch_word :
    completed (step (State.reset.withFetchWord 24 0x104123)) = true ∧
      seenFault (step (State.reset.withFetchWord 24 0x116001)) = some (.trap .uimmState 0) := by decide

end Sys2Proof.Tests
end

section
/-!
The four flags (`10_state.md` R12): what each shared operation answers when the flags before it are other ones. Each
meaning of `exec` is a use of one of these operations, so the flag table follows arm by arm.
-/

namespace Sys2Proof.Machine

open Sys2Proof.Safety

/-- The state with the four flags replaced and everything else kept (R12). -/
def State.setFlags (s : State) (z n c v : Bool) : State := { s with z := z, n := n, c := c, v := v }

section
variable (s : State) (z n c v : Bool)

@[simp] theorem setFlags_bankValid (k : Nat) : (s.setFlags z n c v).bankValid k = s.bankValid k := rfl
@[simp] theorem setFlags_imm24 (imm : Imm12) : (s.setFlags z n c v).imm24 imm = s.imm24 imm := rfl
@[simp] theorem setFlags_pc : (s.setFlags z n c v).pc = s.pc := rfl

/-- The shared frame reads no flag: what other flags change in its outcome is what they change in its body, seen
through completion. -/
theorem withImm24_setFlags {imm : Imm12} {body body' : Word → State} {passFlags : State → State}
    (hbody : ∀ b, (body' b).complete = passFlags (body b).complete) :
    withImm24 imm (s.setFlags z n c v) body' = mapNext passFlags (withImm24 imm s body) := by
  rcases withImm24_cases s imm body with ⟨hvalid, h⟩ | ⟨hstale, h⟩
  · rw [h, withImm24_of_valid (by simpa using hvalid), setFlags_imm24, hbody]
    rfl
  · rw [h, withImm24_of_stale (by simpa using hstale), setFlags_pc]
    rfl

/-- A shift or rotate reads no flag and, whatever its amount, writes `z` and `c` (R54 to R56). -/
theorem shiftRotate_setFlags (kind : ShiftKind) (amount : Imm5) (t : RegNum) :
    shiftRotate kind amount t (s.setFlags z n c v) =
      mapNext (fun r => r.setFlags r.z n r.c v) (shiftRotate kind amount t s) := by
  rcases shiftRotate_cases kind t s amount with ⟨hzero, h⟩ | ⟨hlow, hhigh, h⟩ | ⟨hbeyond, h⟩
  · rw [h, shiftRotate_of_zero kind t _ hzero]
    rfl
  · rw [h, shiftRotate_of_within kind t _ (by omega) (by omega)]
    rfl
  · rw [h, shiftRotate_of_beyond kind t _ hbeyond]
    rfl

/-- The range check reads no flag either, and its trap names only `pc` (R67). -/
theorem checkedShift_setFlags (kind : ShiftKind) (amount : Imm5) (t : RegNum) :
    checkedShift kind amount t (s.setFlags z n c v) =
      mapNext (fun r => r.setFlags r.z n r.c v) (checkedShift kind amount t s) := by
  by_cases hrange : amount.toNat < 24
  · rw [checkedShift_of_range kind t _ hrange, checkedShift_of_range kind t _ hrange, shiftRotate_setFlags]
  · rw [checkedShift_of_beyond kind t _ (by omega), checkedShift_of_beyond kind t _ (by omega), setFlags_pc]
    rfl

/-- `LUIui` reads no flag and writes none (R40). -/
theorem exec_luiui_setFlags (x : BankNum) (imm : Imm12) :
    exec (.luiui x imm) (s.setFlags z n c v) =
      mapNext (fun r => r.setFlags z n c v) (exec (.luiui x imm) s) := by
  by_cases hx : x = 3#2
  · rw [hx, exec_luiui_bank3, exec_luiui_bank3, setFlags_pc]
    rfl
  · rw [exec_luiui hx, exec_luiui hx]
    rfl

/-- The flag table of the class (R12): the flags an instruction does not write pass through it, and nothing else in
its outcome depends on the flags before. -/
theorem exec_setFlags (i : Instr) :
    exec i (s.setFlags z n c v) =
      mapNext (fun r => r.setFlags (if writesZ i then r.z else z) n (if writesC i then r.c else c) v) (exec i s) := by
  cases i with
  | luiui x imm => exact exec_luiui_setFlags s z n c v x imm
  | movui imm t =>
    rw [exec_movui, exec_movui]
    exact withImm24_setFlags s z n c v fun _ => rfl
  | addui imm t =>
    rw [exec_addui, exec_addui]
    exact withImm24_setFlags s z n c v fun _ => rfl
  | subui imm t =>
    rw [exec_subui, exec_subui]
    exact withImm24_setFlags s z n c v fun _ => rfl
  | andui imm t =>
    rw [exec_andui, exec_andui]
    exact withImm24_setFlags s z n c v fun _ => rfl
  | orui imm t =>
    rw [exec_orui, exec_orui]
    exact withImm24_setFlags s z n c v fun _ => rfl
  | xorui imm t =>
    rw [exec_xorui, exec_xorui]
    exact withImm24_setFlags s z n c v fun _ => rfl
  | cmpui imm t =>
    rw [exec_cmpui, exec_cmpui]
    exact withImm24_setFlags s z n c v fun _ => rfl
  | shlui amount t => exact shiftRotate_setFlags s z n c v .left amount t
  | rolui amount t => exact shiftRotate_setFlags s z n c v .rotLeft amount t
  | shrui amount t => exact shiftRotate_setFlags s z n c v .right amount t
  | rorui amount t => exact shiftRotate_setFlags s z n c v .rotRight amount t
  | shluiv amount t => exact checkedShift_setFlags s z n c v .left amount t
  | shruiv amount t => exact checkedShift_setFlags s z n c v .right amount t

end

/-- Settles O23, by the flag table of `exec` over the shared operations. -/
theorem flagTableAndNoFlagRead : Obligations.FlagTableAndNoFlagRead := by
  intro i s z n c v
  exact exec_setFlags s z n c v i

end Sys2Proof.Machine
end

section
/-!
Decoding and encoding as inverses, and the places of the fields (`30_encoding.md` R28 to R36). A word of each format
is rebuilt from its fields, so that the decoder answers an instruction exactly for that instruction's word; the format
tables are then the words of the three formats as numbers.
-/

namespace Sys2Proof

/-! A word is what its fields say. -/

theorem wordL_of_fields {w : InstrWord} (hop : fieldOf w 20 4 = 0b0001#4) (hsub : fieldOf w 16 4 = 0b0000#4)
    (hres : fieldOf w 12 2 = 0#2) : wordL (fieldOf w 14 2) (fieldOf w 0 12) = w := by
  rw [fieldOf_eq_iff] at hop hsub hres
  apply BitVec.eq_of_toNat_eq
  rw [wordL_toNat, fieldOf_toNat, fieldOf_toNat]
  simp at hop hsub hres ⊢
  omega

theorem wordI12_of_fields {w : InstrWord} (hop : fieldOf w 20 4 = 0b0001#4) :
    wordI12 (fieldOf w 16 4) (fieldOf w 0 12) (fieldOf w 12 4) = w := by
  rw [fieldOf_eq_iff] at hop
  apply BitVec.eq_of_toNat_eq
  rw [wordI12_toNat, fieldOf_toNat, fieldOf_toNat, fieldOf_toNat]
  simp at hop ⊢
  omega

theorem wordI5_of_fields {w : InstrWord} (hop : fieldOf w 20 4 = 0b0001#4) (hres : fieldOf w 5 7 = 0#7) :
    wordI5 (fieldOf w 16 4) (fieldOf w 0 5) (fieldOf w 12 4) = w := by
  rw [fieldOf_eq_iff] at hop hres
  apply BitVec.eq_of_toNat_eq
  rw [wordI5_toNat, fieldOf_toNat, fieldOf_toNat, fieldOf_toNat]
  simp at hop hres ⊢
  omega

/-! The two subop tables of R33 and the encoder name the same instructions. -/

section
variable {s : BitVec 4} {mk : Imm12 → RegNum → Instr} {mk5 : Imm5 → RegNum → Instr}

theorem encode_of_i12Of (h : i12Of s = some mk) (imm : Imm12) (t : RegNum) :
    encode (mk imm t) = wordI12 s imm t := by
  unfold i12Of at h
  split at h <;> cases h <;> rfl

theorem encode_of_i5Of (h : i5Of s = some mk5) (amount : Imm5) (t : RegNum) :
    encode (mk5 amount t) = wordI5 s amount t := by
  unfold i5Of at h
  split at h <;> cases h <;> rfl

theorem wellFormed_of_i12Of (h : i12Of s = some mk) (imm : Imm12) (t : RegNum) :
    (mk imm t).wellFormed = true := by
  unfold i12Of at h
  split at h <;> cases h <;> rfl

theorem wellFormed_of_i5Of (h : i5Of s = some mk5) (amount : Imm5) (t : RegNum) :
    (mk5 amount t).wellFormed = true := by
  unfold i5Of at h
  split at h <;> cases h <;> rfl

theorem ne_zero_of_i12Of (h : i12Of s = some mk) : s ≠ 0b0000#4 := by
  rintro rfl
  cases h

theorem ne_zero_of_i5Of (h : i5Of s = some mk5) : s ≠ 0b0000#4 := by
  rintro rfl
  cases h

/-- No subop stands in both tables. -/
theorem i12Of_eq_none_of_i5Of (h : i5Of s = some mk5) : i12Of s = none := by
  unfold i5Of at h
  split at h <;> cases h <;> rfl

/-- `LUIui` is the one instruction with a reserved operand (R34, R44). -/
theorem luiui_wellFormed_iff {x : BankNum} {imm : Imm12} : (Instr.luiui x imm).wellFormed = true ↔ x ≠ 3#2 := by
  simp [Instr.wellFormed]

/-! What the decoder answers for a word of each format. -/

theorem decode_wordL {x : BankNum} (hx : x ≠ 3#2) (imm : Imm12) : decode (wordL x imm) = .ok (.luiui x imm) := by
  simp [decode, decodeL, hx]

theorem decode_wordI12 (h : i12Of s = some mk) (imm : Imm12) (t : RegNum) :
    decode (wordI12 s imm t) = .ok (mk imm t) := by
  simp [decode, h, ne_zero_of_i12Of h]

theorem decode_wordI5 (h : i5Of s = some mk5) (amount : Imm5) (t : RegNum) :
    decode (wordI5 s amount t) = .ok (mk5 amount t) := by
  simp [decode, h, i12Of_eq_none_of_i5Of h, ne_zero_of_i5Of h]

end

/-- The decoder undoes the encoder on the instructions the spec gives a word. -/
theorem decode_encode {i : Instr} (hwf : i.wellFormed = true) : decode (encode i) = .ok i := by
  cases i with
  | luiui x imm => exact decode_wordL (luiui_wellFormed_iff.mp hwf) imm
  | movui imm t => exact decode_wordI12 rfl imm t
  | addui imm t => exact decode_wordI12 rfl imm t
  | subui imm t => exact decode_wordI12 rfl imm t
  | andui imm t => exact decode_wordI12 rfl imm t
  | orui imm t => exact decode_wordI12 rfl imm t
  | xorui imm t => exact decode_wordI12 rfl imm t
  | cmpui imm t => exact decode_wordI12 rfl imm t
  | shlui amount t => exact decode_wordI5 rfl amount t
  | shluiv amount t => exact decode_wordI5 rfl amount t
  | rolui amount t => exact decode_wordI5 rfl amount t
  | shrui amount t => exact decode_wordI5 rfl amount t
  | shruiv amount t => exact decode_wordI5 rfl amount t
  | rorui amount t => exact decode_wordI5 rfl amount t

/-- What a word that decodes looks like, and the instruction it is: one case for each format (R36). -/
theorem decode_cases {w : InstrWord} {i : Instr} (h : decode w = .ok i) :
    (∃ x imm, x ≠ 3#2 ∧ i = .luiui x imm ∧ w = wordL x imm) ∨
    (∃ s mk imm t, i12Of s = some mk ∧ i = mk imm t ∧ w = wordI12 s imm t) ∨
    (∃ s mk amount t, i5Of s = some mk ∧ i = mk amount t ∧ w = wordI5 s amount t) := by
  unfold decode at h
  split at h
  case isTrue => cases h
  case isFalse hop =>
    replace hop := not_not.mp hop
    split at h
    case isTrue hsub =>
      unfold decodeL at h
      split at h
      case isTrue => cases h
      case isFalse hres =>
        split at h <;> cases h
        case isFalse hx => exact .inl ⟨_, _, hx, rfl, (wordL_of_fields hop hsub (not_not.mp hres)).symm⟩
    case isFalse =>
      split at h
      next mk hmk =>
        cases h
        exact .inr (.inl ⟨_, mk, _, _, hmk, rfl, (wordI12_of_fields hop).symm⟩)
      next =>
        split at h
        next mk hmk =>
          split at h <;> cases h
          case isFalse hres =>
            exact .inr (.inr ⟨_, mk, _, _, hmk, rfl, (wordI5_of_fields hop (not_not.mp hres)).symm⟩)
        next => cases h

/-- A word that decodes is the word of its instruction, and that instruction is well formed. -/
theorem encode_of_decode {w : InstrWord} {i : Instr} (h : decode w = .ok i) :
    encode i = w ∧ i.wellFormed = true := by
  obtain ⟨x, imm, hx, rfl, rfl⟩ | ⟨s, mk, imm, t, hmk, rfl, rfl⟩ | ⟨s, mk, amount, t, hmk, rfl, rfl⟩ := decode_cases h
  · exact ⟨rfl, luiui_wellFormed_iff.mpr hx⟩
  · exact ⟨encode_of_i12Of hmk imm t, wellFormed_of_i12Of hmk imm t⟩
  · exact ⟨encode_of_i5Of hmk amount t, wellFormed_of_i5Of hmk amount t⟩

theorem decode_eq_ok_iff {w : InstrWord} {i : Instr} (hwf : i.wellFormed = true) :
    decode w = .ok i ↔ w = encode i := by
  constructor
  · intro h
    exact (encode_of_decode h).1.symm
  · rintro rfl
    exact decode_encode hwf

/-! The format tables as numbers: one field table for each format. -/

theorem decode_eq_luiui_iff {x : BankNum} (hx : x ≠ 3#2) (w : InstrWord) (imm : Imm12) :
    decode w = .ok (.luiui x imm) ↔ w.toNat = 1 * 2 ^ 20 + x.toNat * 2 ^ 14 + imm.toNat := by
  rw [decode_eq_ok_iff (luiui_wellFormed_iff.mpr hx), encode, ← BitVec.toNat_inj, wordL_toNat]
  rfl

theorem decode_eq_i12_iff {s : BitVec 4} {mk : Imm12 → RegNum → Instr} (h : i12Of s = some mk) (w : InstrWord)
    (imm : Imm12) (t : RegNum) :
    decode w = .ok (mk imm t) ↔ w.toNat = 1 * 2 ^ 20 + s.toNat * 2 ^ 16 + t.toNat * 2 ^ 12 + imm.toNat := by
  rw [decode_eq_ok_iff (wellFormed_of_i12Of h imm t), encode_of_i12Of h, ← BitVec.toNat_inj, wordI12_toNat]
  rfl

theorem decode_eq_i5_iff {s : BitVec 4} {mk : Imm5 → RegNum → Instr} (h : i5Of s = some mk) (w : InstrWord)
    (amount : Imm5) (t : RegNum) :
    decode w = .ok (mk amount t) ↔ w.toNat = 1 * 2 ^ 20 + s.toNat * 2 ^ 16 + t.toNat * 2 ^ 12 + amount.toNat := by
  rw [decode_eq_ok_iff (wellFormed_of_i5Of h amount t), encode_of_i5Of h, ← BitVec.toNat_inj, wordI5_toNat]
  rfl

/-- Settles O3: each subop of the format tables is the decoder's, and a word decodes to an instruction exactly when it
is that instruction's word. -/
theorem formatFieldPlaces : Obligations.FormatFieldPlaces := by
  refine ⟨fun w x imm hx => decode_eq_luiui_iff hx w imm, ?_, ?_⟩
  · simp only [List.forall_mem_cons]
    exact ⟨decode_eq_i12_iff (s := 1#4) rfl, decode_eq_i12_iff (s := 3#4) rfl, decode_eq_i12_iff (s := 4#4) rfl,
      decode_eq_i12_iff (s := 6#4) rfl, decode_eq_i12_iff (s := 7#4) rfl, decode_eq_i12_iff (s := 8#4) rfl,
      decode_eq_i12_iff (s := 13#4) rfl, List.forall_mem_nil _⟩
  · simp only [List.forall_mem_cons]
    exact ⟨decode_eq_i5_iff (s := 9#4) rfl, decode_eq_i5_iff (s := 10#4) rfl, decode_eq_i5_iff (s := 11#4) rfl,
      decode_eq_i5_iff (s := 12#4) rfl, decode_eq_i5_iff (s := 14#4) rfl, decode_eq_i5_iff (s := 15#4) rfl,
      List.forall_mem_nil _⟩

end Sys2Proof
end

section
/-!
`LUIui` in full (`40_upper_immediate.md` R40): its isa line, its word by the format laws, and its next state by the
laws of the banks and of the validity bits.
-/

namespace Sys2Proof.Machine

open Sys2Proof.Safety

/-- A bank number other than 3 is at most 2, the range the assembler checks (R37, R40). -/
theorem bankNum_toNat_le {x : BankNum} (hx : x ≠ 3#2) : x.toNat ≤ 2 := by
  rcases bankNum_cases hx with rfl | rfl | rfl <;> decide

/-- The uop line of `LUIui` assembles to it, since both operands are in range (R37). -/
theorem assembleUop_luiui {x : BankNum} (hx : x ≠ 3#2) (imm : Imm12) :
    assembleUop ⟨.LUIui, [x.toNat, imm.toNat], none⟩ = some (.luiui x imm) := by
  have hbank := bankNum_toNat_le hx
  have himm : imm.toNat ≤ 4095 := Nat.le_of_lt_succ imm.isLt
  simp [assembleUop, hbank, himm]

/-- `load_upper_imm` is one uop, not a macro (R38). -/
theorem assembleIsa_loadUpperImm {x : BankNum} (hx : x ≠ 3#2) (imm : Imm12) :
    assembleIsa ⟨.loadUpperImm, [x.toNat, imm.toNat], none⟩ = some [.luiui x imm] := by
  simp [assembleIsa, expandIsa, isaTarget, assembleUops, assembleUop_luiui hx]

/-- The banks after `LUIui`: bank `x` takes the immediate and becomes valid, the other two keep value and validity
(R40). -/
theorem exec_luiui_banks {x : BankNum} (hx : x ≠ 3#2) {imm : Imm12} {s s' : State}
    (h : exec (.luiui x imm) s = .next s') {k : Nat} (hk : k < 3) :
    bankOf s'.uimm k = (if k = x.toNat then imm else bankOf s.uimm k) ∧
      s'.bankValid k = (decide (k = x.toNat) || s.bankValid k) := by
  rw [exec_luiui hx] at h
  cases h
  exact ⟨bankOf_withBank s.uimm hx imm hk, openWindow_bankValid { s with uimm := withBank s.uimm x imm } hx hk⟩

/-- Settles O29: the spelling and the word by the laws above, the clauses on the banks by `exec_luiui_banks`, and the
frame by the next state itself. -/
theorem luiuiWritesOneBank : Obligations.LuiuiWritesOneBank := by
  intro x imm hx
  have hdecode := decode_encode (i := .luiui x imm) (luiui_wellFormed_iff.mpr hx)
  refine ⟨assembleIsa_loadUpperImm hx imm, (decode_eq_luiui_iff hx _ imm).mp hdecode, hdecode, fun s => ?_⟩
  have hnext := exec_luiui hx imm s
  obtain ⟨hvalue, hvalid⟩ := exec_luiui_banks hx hnext (Nat.lt_succ_of_le (bankNum_toNat_le hx))
  refine ⟨_, hnext, by simpa using hvalue, by simpa using hvalid, fun k hk hne => ?_,
    rfl, rfl, rfl, rfl, fun _ => rfl, rfl, rfl, rfl⟩
  simpa [hne] using exec_luiui_banks hx hnext hk

end Sys2Proof.Machine
end

section
/-!
The immediate instructions that write `DR[t]` (`41_imm24_alu.md` R45 to R51). Their macros and words follow from the
assembler's and the decoder's tables, for every row alike; their effect is a result written to `DR[t]`, `z` from it, and
the frame that completion keeps.
-/

namespace Sys2Proof.Machine

open Sys2Proof.Safety

/-! Spelling and word, for every row of the tables. -/

section
variable {m : Mnemonic} {mk : Imm12 → RegNum → Instr}

/-- The uop line of a name that takes `#imm12, DRt`, with the immediate in range (R37). -/
theorem assembleUop_i12 (h : i12Named m = some mk) {n : Nat} (hn : n ≤ 4095) (t : RegNum) :
    assembleUop ⟨m, [n], some t.toNat⟩ = some (mk (BitVec.ofNat 12 n) t) := by
  have ht : t.toNat ≤ 15 := Nat.le_of_lt_succ t.isLt
  simp [assembleUop, h, hn, ht]

/-- The first uop line of every macro (R38). -/
theorem assembleUop_luiui_bank0 {n : Nat} (hn : n ≤ 4095) :
    assembleUop ⟨.LUIui, [0, n], none⟩ = some (.luiui 0#2 (BitVec.ofNat 12 n)) := by
  simpa [Nat.mod_eq_of_lt (Nat.lt_succ_of_le hn)] using assembleUop_luiui (x := 0#2) (by decide) (BitVec.ofNat 12 n)

/-- A name that the isa table marks as a macro is one for every 24-bit constant: both halves are in range (R38). -/
theorem isMacroOf_of_isaTarget {name : IsaName} (htarget : isaTarget name = (m, true))
    (hnamed : i12Named m = some mk) : IsMacroOf name mk := by
  intro k t
  have hk : k.toNat ≤ 16777215 := Nat.le_of_lt_succ k.isLt
  have hhigh := assembleUop_luiui_bank0 (n := k.toNat / 4096) (by omega)
  have hlow := assembleUop_i12 hnamed (n := k.toNat % 4096) (by omega) t
  simp [assembleIsa, expandIsa, htarget, hk, assembleUops, hhigh, hlow]

/-- A row of the `I12` table has its subop in its word, and the word decodes to it (R29, R33). -/
theorem encodedI12_of_i12Of {subop : BitVec 4} (h : i12Of subop = some mk) : EncodedI12 subop.toNat mk := by
  intro imm t
  have hdecode := decode_encode (wellFormed_of_i12Of h imm t)
  exact ⟨(decode_eq_i12_iff h _ imm t).mp hdecode, hdecode⟩

end

/-- A reader of bank 0 traps where bank 0 is not valid (R43, R66). -/
theorem exec_of_readsBank0_stale {i : Instr} (hreads : readsBank0 i = true) {s : State}
    (hstale : s.bankValid 0 = false) : exec i s = .fault (.trap .uimmState s.pc) := by
  obtain ⟨imm, body, hexec, -⟩ := exec_of_readsBank0 hreads s
  rw [hexec, withImm24_of_stale hstale]

/-! The effect: a result in `DR[t]`, `z` from it, and the frame. -/

/-- Writes to `DR[t]`, `z` and `c` alone, completed, leave the frame of R45. -/
theorem complete_frame {s written : State} {t : RegNum} (hregs : OtherRegsKept t s written)
    (hrest : KeepsRest written s) (hdraws : written.draws = s.draws) :
    OtherRegsKept t s written.complete ∧ Completed s written.complete ∧ NothingDrawn s written.complete := by
  obtain ⟨hn, hv, huimm, hpc, hprogram⟩ := hrest
  exact ⟨hregs, ⟨rfl, congrArg (· + 1) hpc, hn, hv, huimm, hprogram⟩, hdraws⟩

section
variable (s : State) (t : RegNum) (imm : Imm12) (result : Word) (carry : Bool)

/-- The operand is the number of R31. -/
theorem imm24_toNat_eq_operandNat : (s.imm24 imm).toNat = operandNat s imm :=
  imm24_toNat s imm

/-- The bits of the operand are those of the number of R31. -/
theorem imm24_getLsbD (k : Nat) : (s.imm24 imm).getLsbD k = (operandNat s imm).testBit k := by
  rw [BitVec.getLsbD, imm24_toNat_eq_operandNat]

theorem writeResult_otherRegsKept : OtherRegsKept t s (s.writeResult t result) :=
  fun u hu => readDR_writeDR_other s t u result hu

/-- A completed result with a carry (R47): `DR[t]` and `z` from the result, `c` the carry, and the frame kept. -/
theorem writeResult_setC_complete_effect :
    let s' := ((s.writeResult t result).setC carry).complete
    s'.readDR t = result ∧ s'.z = decide (result.toNat = 0) ∧ s'.c = carry ∧
      OtherRegsKept t s s' ∧ Completed s s' ∧ NothingDrawn s s' :=
  ⟨readDR_writeDR_same s t result, zeroFlag_eq_decide result, rfl,
    complete_frame (writeResult_otherRegsKept s t result) ⟨rfl, rfl, rfl, rfl, rfl⟩ rfl⟩

/-- A completed result without a carry (R46, R49 to R51): `c` is as if the old one had been written. -/
theorem writeResult_complete_effect :
    let s' := (s.writeResult t result).complete
    s'.readDR t = result ∧ s'.z = decide (result.toNat = 0) ∧ s'.c = s.c ∧
      OtherRegsKept t s s' ∧ Completed s s' ∧ NothingDrawn s s' :=
  writeResult_setC_complete_effect s t result s.c

/-- An operation that works bit by bit, in the frame of the immediate instructions: each bit of `DR[t]` is the operation
on that bit of `DR[t]` and of the operand (R49 to R51). -/
theorem withImm24_bitwise_effect {op : Word → Word → Word} {bitOp : Bool → Bool → Bool}
    (hbit : ∀ (a b : Word) (k : Nat), (op a b).getLsbD k = bitOp (a.getLsbD k) (b.getLsbD k))
    (hvalid : s.bankValid 0 = true) :
    ∃ s', (withImm24 imm s fun b => s.writeResult t (op (s.readDR t) b)) = .next s' ∧
      (∀ k < 24, (s'.readDR t).getLsbD k = bitOp ((s.readDR t).getLsbD k) ((operandNat s imm).testBit k)) ∧
      s'.z = decide ((s'.readDR t).toNat = 0) ∧
      s'.c = s.c ∧ OtherRegsKept t s s' ∧ Completed s s' ∧ NothingDrawn s s' := by
  obtain ⟨hresult, hz, hkept⟩ := writeResult_complete_effect s t (op (s.readDR t) (s.imm24 imm))
  refine ⟨_, withImm24_of_valid hvalid imm _, fun k _ => ?_, ?_, hkept⟩
  · rw [hresult, hbit, imm24_getLsbD]
  · rw [hresult, hz]

end

/-- Settles O30: the result is the operand itself. -/
theorem movuiLoadsConstant : Obligations.MovuiLoadsConstant := by
  refine ⟨isMacroOf_of_isaTarget rfl rfl, encodedI12_of_i12Of (subop := 1#4) rfl, fun imm t s =>
    ⟨exec_of_readsBank0_stale rfl, fun hvalid => ?_⟩⟩
  obtain ⟨hresult, hz, hkept⟩ := writeResult_complete_effect s t (s.imm24 imm)
  rw [exec_movui]
  refine ⟨_, withImm24_of_valid hvalid imm _, ?_, ?_, hkept⟩
  · rw [hresult, imm24_toNat_eq_operandNat]
  · rw [hz, imm24_toNat_eq_operandNat]

/-- Settles O31: the result is the sum of the words, which is the sum of the numbers modulo `2^24`. -/
theorem adduiAddsModulo : Obligations.AdduiAddsModulo := by
  refine ⟨isMacroOf_of_isaTarget rfl rfl, encodedI12_of_i12Of (subop := 3#4) rfl, fun imm t s =>
    ⟨exec_of_readsBank0_stale rfl, fun hvalid => ?_⟩⟩
  obtain ⟨hresult, hz, hc, hkept⟩ := writeResult_setC_complete_effect s t (s.readDR t + s.imm24 imm)
    (addCarry (s.readDR t) (s.imm24 imm))
  rw [exec_addui]
  refine ⟨_, withImm24_of_valid hvalid imm _, ?_, ?_, ?_, hkept⟩
  · rw [hresult, BitVec.toNat_add, imm24_toNat_eq_operandNat]
  · rw [hz, BitVec.toNat_add, imm24_toNat_eq_operandNat]
  · rw [hc, addCarry, imm24_toNat_eq_operandNat]

/-- Settles O33: the conjunction of words is that of their bits. -/
theorem anduiAndsBitwise : Obligations.AnduiAndsBitwise := by
  refine ⟨isMacroOf_of_isaTarget rfl rfl, encodedI12_of_i12Of (subop := 6#4) rfl, fun imm t s =>
    ⟨exec_of_readsBank0_stale rfl, fun hvalid => ?_⟩⟩
  rw [exec_andui]
  exact withImm24_bitwise_effect s t imm (fun _ _ _ => BitVec.getLsbD_and) hvalid

/-- Settles O34: the disjunction of words is that of their bits. -/
theorem oruiOrsBitwise : Obligations.OruiOrsBitwise := by
  refine ⟨isMacroOf_of_isaTarget rfl rfl, encodedI12_of_i12Of (subop := 7#4) rfl, fun imm t s =>
    ⟨exec_of_readsBank0_stale rfl, fun hvalid => ?_⟩⟩
  rw [exec_orui]
  exact withImm24_bitwise_effect s t imm (fun _ _ _ => BitVec.getLsbD_or) hvalid

/-- Settles O35: the exclusive or of words is that of their bits. -/
theorem xoruiXorsBitwise : Obligations.XoruiXorsBitwise := by
  refine ⟨isMacroOf_of_isaTarget rfl rfl, encodedI12_of_i12Of (subop := 8#4) rfl, fun imm t s =>
    ⟨exec_of_readsBank0_stale rfl, fun hvalid => ?_⟩⟩
  rw [exec_xorui]
  exact withImm24_bitwise_effect s t imm (fun _ _ _ => BitVec.getLsbD_xor) hvalid

end Sys2Proof.Machine
end

section
/-!
Causes of a trap (`60_exceptions.md` R65 to R67). Each family of instructions has at most one cause: the readers of
bank 0 raise `UIMM_STATE`, the shifts and rotates `ARITH_RANGE`, and `LUIui` nothing.
-/

namespace Sys2Proof.Machine

open Sys2Proof.Safety

/-- No reader of bank 0 has a checked amount (R65). -/
theorem outOfCheckedRange_of_readsBank0 {i : Instr} (hreads : readsBank0 i = true) : outOfCheckedRange i = false := by
  cases i
  case shluiv | shruiv => cases hreads
  all_goals rfl

/-- The test for `LUIui` answers for that constructor alone. -/
theorem eq_luiui_of_isLuiui {i : Instr} (hluiui : isLuiui i = true) : ∃ x imm, i = .luiui x imm := by
  cases i
  case luiui x imm => exact ⟨x, imm, rfl⟩
  all_goals cases hluiui

/-- `LUIui` raises nothing (R65): it completes, or is refused for bank 3. -/
theorem exec_luiui_ne_fault (x : BankNum) (imm : Imm12) (s : State) (f : Fault) :
    exec (.luiui x imm) s ≠ .fault f := by
  by_cases hx : x = 3#2
  · subst hx
    simp [exec_luiui_bank3]
  · simp [exec_luiui hx]

/-- A reader of bank 0 raises `UIMM_STATE` where the bank is not valid, and nothing else (R43, R66). -/
theorem exec_fault_iff_of_readsBank0 {i : Instr} (hreads : readsBank0 i = true) (s : State) (f : Fault) :
    exec i s = .fault f ↔ s.bankValid 0 = false ∧ f = .trap .uimmState s.pc := by
  cases hvalid : s.bankValid 0
  case false => simp [exec_of_readsBank0_stale hreads hvalid, eq_comm]
  case true =>
    obtain ⟨imm, body, hexec, -⟩ := exec_of_readsBank0 hreads s
    simp [hexec, withImm24_of_valid hvalid]

/-- A shift or rotate raises `ARITH_RANGE` where a checked amount is 24 or more, and nothing else (R67). -/
theorem exec_fault_iff_of_shift {i : Instr} (hreads : readsBank0 i = false) (hluiui : isLuiui i = false) (s : State)
    (f : Fault) : exec i s = .fault f ↔ outOfCheckedRange i = true ∧ f = .trap .arithRange s.pc := by
  rcases exec_of_shift hreads hluiui s with ⟨next, hexec, hrange, -⟩ | ⟨hexec, hrange⟩
  · simp [hexec, hrange]
  · simp [hexec, hrange, eq_comm]

/-- Settles O21: an instruction reads bank 0, or is `LUIui`, or shifts, and each family has its own causes. -/
theorem faultsExactlyAsListed : Obligations.FaultsExactlyAsListed := by
  intro i s f
  cases hreads : readsBank0 i
  case true => simp [exec_fault_iff_of_readsBank0 hreads, outOfCheckedRange_of_readsBank0 hreads]
  case false =>
    cases hluiui : isLuiui i
    case false => simp [exec_fault_iff_of_shift hreads hluiui]
    case true =>
      obtain ⟨x, imm, rfl⟩ := eq_luiui_of_isLuiui hluiui
      simp [exec_luiui_ne_fault, outOfCheckedRange]

end Sys2Proof.Machine
end

section
/-!
The encoding as a whole (`30_encoding.md` sections 4 and 5). A row of the opcode map matches the words of its format:
its mask keeps the opclass, the subop and the reserved bits, and these fields are those of the row's match value.
-/

namespace Sys2Proof

open Sys2Proof.Machine

/-- Settles O1: the round trip is the decoder's law on the words of the three formats. -/
theorem decodeEncodeRoundTrip : Obligations.DecodeEncodeRoundTrip :=
  fun _ => decode_encode

/-- Settles O2: a word that decodes is rebuilt from its fields. -/
theorem encodeOfDecodedWord : Obligations.EncodeOfDecodedWord :=
  fun _ _ => encode_of_decode

/-! A word is determined by its fields, and a mask acts on each field by itself. -/

theorem fieldOf_and (w mask : InstrWord) (lo width : Nat) :
    fieldOf (w &&& mask) lo width = fieldOf w lo width &&& fieldOf mask lo width :=
  BitVec.extractLsb'_and

section
variable {w w' : InstrWord}

theorem eq_of_fieldsL (hop : fieldOf w 20 4 = fieldOf w' 20 4) (hsub : fieldOf w 16 4 = fieldOf w' 16 4)
    (hbank : fieldOf w 14 2 = fieldOf w' 14 2) (hres : fieldOf w 12 2 = fieldOf w' 12 2)
    (himm : fieldOf w 0 12 = fieldOf w' 0 12) : w = w' := by
  rw [fieldOf_eq_iff, fieldOf_toNat] at hop hsub hbank hres himm
  apply BitVec.eq_of_toNat_eq
  simp at hop hsub hbank hres himm
  omega

theorem eq_of_fieldsI12 (hop : fieldOf w 20 4 = fieldOf w' 20 4) (hsub : fieldOf w 16 4 = fieldOf w' 16 4)
    (hreg : fieldOf w 12 4 = fieldOf w' 12 4) (himm : fieldOf w 0 12 = fieldOf w' 0 12) : w = w' := by
  rw [fieldOf_eq_iff, fieldOf_toNat] at hop hsub hreg himm
  apply BitVec.eq_of_toNat_eq
  simp at hop hsub hreg himm
  omega

theorem eq_of_fieldsI5 (hop : fieldOf w 20 4 = fieldOf w' 20 4) (hsub : fieldOf w 16 4 = fieldOf w' 16 4)
    (hreg : fieldOf w 12 4 = fieldOf w' 12 4) (hres : fieldOf w 5 7 = fieldOf w' 5 7)
    (hamount : fieldOf w 0 5 = fieldOf w' 0 5) : w = w' := by
  rw [fieldOf_eq_iff, fieldOf_toNat] at hop hsub hreg hres hamount
  apply BitVec.eq_of_toNat_eq
  simp at hop hsub hreg hres hamount
  omega

end

/-! The masks of R33, field by field: all ones where the format has a fixed field, zero where it has an operand. -/

theorem maskL_fields :
    fieldOf 0xFF3000#24 20 4 = BitVec.allOnes 4 ∧ fieldOf 0xFF3000#24 16 4 = BitVec.allOnes 4 ∧
      fieldOf 0xFF3000#24 14 2 = 0#2 ∧ fieldOf 0xFF3000#24 12 2 = BitVec.allOnes 2 ∧
      fieldOf 0xFF3000#24 0 12 = 0#12 := by decide

theorem maskI12_fields :
    fieldOf 0xFF0000#24 20 4 = BitVec.allOnes 4 ∧ fieldOf 0xFF0000#24 16 4 = BitVec.allOnes 4 ∧
      fieldOf 0xFF0000#24 12 4 = 0#4 ∧ fieldOf 0xFF0000#24 0 12 = 0#12 := by decide

theorem maskI5_fields :
    fieldOf 0xFF0FE0#24 20 4 = BitVec.allOnes 4 ∧ fieldOf 0xFF0FE0#24 16 4 = BitVec.allOnes 4 ∧
      fieldOf 0xFF0FE0#24 12 4 = 0#4 ∧ fieldOf 0xFF0FE0#24 5 7 = BitVec.allOnes 7 ∧
      fieldOf 0xFF0FE0#24 0 5 = 0#5 := by decide

/-- The words that the mask of format `L` takes to the format's word without operands are the format's words. -/
theorem and_maskL_eq_iff (w : InstrWord) :
    w &&& 0xFF3000#24 = wordL 0 0 ↔ ∃ x imm, w = wordL x imm := by
  constructor
  · intro h
    have hfield (lo width : Nat) := congrArg (fieldOf · lo width) h
    have hop := hfield 20 4
    have hsub := hfield 16 4
    have hres := hfield 12 2
    simp [fieldOf_and, maskL_fields, -BitVec.reduceAllOnes] at hop hsub hres
    exact ⟨_, _, (wordL_of_fields hop hsub hres).symm⟩
  · rintro ⟨x, imm, rfl⟩
    apply eq_of_fieldsL <;> simp [fieldOf_and, maskL_fields]

/-- The same for format `I12` and a subop. -/
theorem and_maskI12_eq_iff (w : InstrWord) (s : BitVec 4) :
    w &&& 0xFF0000#24 = wordI12 s 0 0 ↔ ∃ imm t, w = wordI12 s imm t := by
  constructor
  · intro h
    have hfield (lo width : Nat) := congrArg (fieldOf · lo width) h
    have hop := hfield 20 4
    have hsub := hfield 16 4
    simp [fieldOf_and, maskI12_fields, -BitVec.reduceAllOnes] at hop hsub
    exact ⟨_, _, by rw [← hsub, wordI12_of_fields hop]⟩
  · rintro ⟨imm, t, rfl⟩
    apply eq_of_fieldsI12 <;> simp [fieldOf_and, maskI12_fields, -BitVec.reduceAllOnes]

/-- The same for format `I5` and a subop. -/
theorem and_maskI5_eq_iff (w : InstrWord) (s : BitVec 4) :
    w &&& 0xFF0FE0#24 = wordI5 s 0 0 ↔ ∃ amount t, w = wordI5 s amount t := by
  constructor
  · intro h
    have hfield (lo width : Nat) := congrArg (fieldOf · lo width) h
    have hop := hfield 20 4
    have hsub := hfield 16 4
    have hres := hfield 5 7
    simp [fieldOf_and, maskI5_fields, -BitVec.reduceAllOnes] at hop hsub hres
    exact ⟨_, _, by rw [← hsub, wordI5_of_fields hop hres]⟩
  · rintro ⟨amount, t, rfl⟩
    apply eq_of_fieldsI5 <;> simp [fieldOf_and, maskI5_fields, -BitVec.reduceAllOnes]

/-! The instructions of a name are those of its format with any operands. -/

section
variable {m : Mnemonic} {mk : Imm12 → RegNum → Instr} {mk5 : Imm5 → RegNum → Instr}

theorem mnemonic_eq_LUIui_iff {i : Instr} : i.mnemonic = .LUIui ↔ ∃ x imm, i = .luiui x imm := by
  cases i <;> simp [Instr.mnemonic]

theorem mnemonic_eq_iff_of_i12Named (h : i12Named m = some mk) {i : Instr} :
    i.mnemonic = m ↔ ∃ imm t, i = mk imm t := by
  unfold i12Named at h
  split at h <;> cases h <;> cases i <;> simp [Instr.mnemonic]

theorem mnemonic_eq_iff_of_i5Named (h : i5Named m = some mk5) {i : Instr} :
    i.mnemonic = m ↔ ∃ amount t, i = mk5 amount t := by
  unfold i5Named at h
  split at h <;> cases h <;> cases i <;> simp [Instr.mnemonic]

/-! The rows of the opcode map, one lemma for each format. -/

theorem row_LUIui_matchesWord (w : InstrWord) :
    (⟨.LUIui, wordL 0 0, 0xFF3000#24⟩ : OpcodeRow).matchesWord w = true ↔
      ∃ i : Instr, decode w = .ok i ∧ i.mnemonic = .LUIui := by
  simp only [OpcodeRow.matchesWord, bne_self_eq_false, Bool.false_or, Bool.and_eq_true, beq_iff_eq, bne_iff_ne,
    and_maskL_eq_iff, mnemonic_eq_LUIui_iff]
  constructor
  · rintro ⟨⟨x, imm, rfl⟩, hx⟩
    rw [wordL_bank] at hx
    exact ⟨_, decode_wordL hx imm, x, imm, rfl⟩
  · rintro ⟨_, hdecode, x, imm, rfl⟩
    obtain ⟨rfl, hwf⟩ := encode_of_decode hdecode
    refine ⟨⟨x, imm, rfl⟩, ?_⟩
    simpa [encode] using luiui_wellFormed_iff.mp hwf

theorem row_i12_matchesWord {s : BitVec 4} (hnamed : i12Named m = some mk) (hsubop : i12Of s = some mk)
    (hname : m ≠ .LUIui) (w : InstrWord) :
    (⟨m, wordI12 s 0 0, 0xFF0000#24⟩ : OpcodeRow).matchesWord w = true ↔
      ∃ i : Instr, decode w = .ok i ∧ i.mnemonic = m := by
  simp only [OpcodeRow.matchesWord, bne_iff_ne.mpr hname, Bool.true_or, Bool.and_true, beq_iff_eq,
    and_maskI12_eq_iff, mnemonic_eq_iff_of_i12Named hnamed]
  constructor
  · rintro ⟨imm, t, rfl⟩
    exact ⟨_, decode_wordI12 hsubop imm t, imm, t, rfl⟩
  · rintro ⟨_, hdecode, imm, t, rfl⟩
    exact ⟨imm, t, by rw [← encode_of_i12Of hsubop, (encode_of_decode hdecode).1]⟩

theorem row_i5_matchesWord {s : BitVec 4} (hnamed : i5Named m = some mk5) (hsubop : i5Of s = some mk5)
    (hname : m ≠ .LUIui) (w : InstrWord) :
    (⟨m, wordI5 s 0 0, 0xFF0FE0#24⟩ : OpcodeRow).matchesWord w = true ↔
      ∃ i : Instr, decode w = .ok i ∧ i.mnemonic = m := by
  simp only [OpcodeRow.matchesWord, bne_iff_ne.mpr hname, Bool.true_or, Bool.and_true, beq_iff_eq,
    and_maskI5_eq_iff, mnemonic_eq_iff_of_i5Named hnamed]
  constructor
  · rintro ⟨amount, t, rfl⟩
    exact ⟨_, decode_wordI5 hsubop amount t, amount, t, rfl⟩
  · rintro ⟨_, hdecode, amount, t, rfl⟩
    exact ⟨amount, t, by rw [← encode_of_i5Of hsubop, (encode_of_decode hdecode).1]⟩

end

/-- Every name has its row (R33). -/
theorem exists_row_of_mnemonic (m : Mnemonic) : ∃ r ∈ opcodeRows, r.name = m := by
  cases m <;> decide

/-- Settles O4: each row's match value is its format's word without operands, so its format's lemma applies. -/
theorem opcodeMapAgreesWithDecoder : Obligations.OpcodeMapAgreesWithDecoder := by
  refine ⟨?_, fun i => exists_row_of_mnemonic i.mnemonic⟩
  simp only [opcodeRows, List.forall_mem_cons]
  exact ⟨row_LUIui_matchesWord,
    row_i12_matchesWord (s := 1#4) rfl rfl (by decide), row_i12_matchesWord (s := 3#4) rfl rfl (by decide),
    row_i12_matchesWord (s := 4#4) rfl rfl (by decide), row_i12_matchesWord (s := 6#4) rfl rfl (by decide),
    row_i12_matchesWord (s := 7#4) rfl rfl (by decide), row_i12_matchesWord (s := 8#4) rfl rfl (by decide),
    row_i5_matchesWord (s := 9#4) rfl rfl (by decide), row_i5_matchesWord (s := 10#4) rfl rfl (by decide),
    row_i5_matchesWord (s := 11#4) rfl rfl (by decide), row_i5_matchesWord (s := 12#4) rfl rfl (by decide),
    row_i12_matchesWord (s := 13#4) rfl rfl (by decide), row_i5_matchesWord (s := 14#4) rfl rfl (by decide),
    row_i5_matchesWord (s := 15#4) rfl rfl (by decide), List.forall_mem_nil _⟩

/-- Settles O6. -/
theorem specWordsDecode : Obligations.SpecWordsDecode := by
  unfold Obligations.SpecWordsDecode
  decide

/-! Words without meaning (section 5), by their bits as numbers. -/

section
variable {w : InstrWord}

theorem decode_of_otherOpclass (hop : w.toNat / 2 ^ 20 ≠ 1) : decode w = .error .otherOpclass := by
  have hfield : fieldOf w 20 4 ≠ 0b0001#4 := by
    have hlt := w.isLt
    rw [Ne, fieldOf_eq_iff]
    simp at hop ⊢
    omega
  simp [decode, hfield]

/-- The opclass and the subop of a word of this opclass, from its top eight bits. -/
theorem opclass_subop_of_topByte (s : BitVec 4) (htop : w.toNat / 2 ^ 16 = 0x10 + s.toNat) :
    fieldOf w 20 4 = 0b0001#4 ∧ fieldOf w 16 4 = s := by
  have hs := s.isLt
  rw [fieldOf_eq_iff, fieldOf_eq_iff]
  simp at htop ⊢
  omega

/-- The subops that stand in neither table. -/
theorem decode_of_unassignedSubop (htop : w.toNat / 2 ^ 16 = 0x12 ∨ w.toNat / 2 ^ 16 = 0x15) :
    decode w = .error .unassignedSubop := by
  rcases htop with h | h
  · obtain ⟨hop, hsub⟩ := opclass_subop_of_topByte 0x2#4 h
    simp [decode, hop, hsub, i12Of, i5Of]
  · obtain ⟨hop, hsub⟩ := opclass_subop_of_topByte 0x5#4 h
    simp [decode, hop, hsub, i12Of, i5Of]

/-- Subop `0000` is the arm of `LUIui`. -/
theorem decode_of_subop_zero (htop : w.toNat / 2 ^ 16 = 0x10) : decode w = decodeL w := by
  obtain ⟨hop, hsub⟩ := opclass_subop_of_topByte 0x0#4 htop
  simp [decode, hop, hsub]

theorem decode_of_luiuiReservedBits (htop : w.toNat / 2 ^ 16 = 0x10) (hres : w.toNat / 2 ^ 12 % 4 ≠ 0) :
    decode w = .error .luiuiReservedBits := by
  have hbits : fieldOf w 12 2 ≠ 0#2 := mt (fieldOf_eq_iff w 12 2 0#2).mp hres
  simp [decode_of_subop_zero htop, decodeL, hbits]

theorem decode_of_luiuiBank3 (htop : w.toNat / 2 ^ 12 = 0x10C) : decode w = .error .luiuiBank3 := by
  have hsub : w.toNat / 2 ^ 16 = 0x10 := by omega
  have hbits : fieldOf w 12 2 = 0#2 := by
    rw [fieldOf_eq_iff, htop]
    rfl
  have hbank : fieldOf w 14 2 = 3#2 := by
    rw [fieldOf_eq_iff]
    simp at htop ⊢
    omega
  simp [decode_of_subop_zero hsub, decodeL, hbits, hbank]

/-- The top eight bits of the shifts and rotates: each has a subop of the `I5` table. -/
theorem i5Of_of_topByte (htop : w.toNat / 2 ^ 16 ∈ [0x19, 0x1A, 0x1B, 0x1C, 0x1E, 0x1F]) :
    ∃ s mk, w.toNat / 2 ^ 16 = 0x10 + BitVec.toNat s ∧ i5Of s = some mk := by
  simp only [List.mem_cons, List.not_mem_nil, or_false] at htop
  rcases htop with h | h | h | h | h | h
  · exact ⟨0x9#4, _, h, rfl⟩
  · exact ⟨0xA#4, _, h, rfl⟩
  · exact ⟨0xB#4, _, h, rfl⟩
  · exact ⟨0xC#4, _, h, rfl⟩
  · exact ⟨0xE#4, _, h, rfl⟩
  · exact ⟨0xF#4, _, h, rfl⟩

theorem decode_of_i5ReservedBits (htop : w.toNat / 2 ^ 16 ∈ [0x19, 0x1A, 0x1B, 0x1C, 0x1E, 0x1F])
    (hres : w.toNat / 2 ^ 5 % 128 ≠ 0) : decode w = .error .i5ReservedBits := by
  obtain ⟨s, mk, hnumber, hmk⟩ := i5Of_of_topByte htop
  obtain ⟨hop, hsub⟩ := opclass_subop_of_topByte s hnumber
  have hbits : fieldOf w 5 7 ≠ 0#7 := mt (fieldOf_eq_iff w 5 7 0#7).mp hres
  simp [decode, hop, hsub, ne_zero_of_i5Of hmk, i12Of_eq_none_of_i5Of hmk, hmk, hbits]

end

end Sys2Proof
end

section
/-!
Steps and runs (`60_exceptions.md` R68 to R76, `70_reset_and_hazards.md` R82, R83). A step answers by what the word at
`pc` decodes to, an instruction refuses or traps only with its own index, and a step that completes moves `pc` by one;
a run therefore ends within the words that are left.
-/

namespace Sys2Proof.Machine

open Sys2Proof.Safety

/-! What an instruction can answer besides a next state. -/

/-- `LUIui` is refused for bank 3 alone (R44). -/
theorem exec_luiui_refused_iff (x : BankNum) (imm : Imm12) (s : State) (r : Refusal) :
    exec (.luiui x imm) s = .refused r ↔ x = 3#2 ∧ r = .noMeaning .luiuiBank3 s.pc := by
  by_cases hx : x = 3#2
  · subst hx
    simp [exec_luiui_bank3, eq_comm]
  · simp [exec_luiui hx, hx]

/-- No instruction but `LUIui` is refused: it completes or traps (R76). -/
theorem exec_ne_refused {i : Instr} (hluiui : isLuiui i = false) (s : State) (r : Refusal) :
    exec i s ≠ .refused r := by
  cases hreads : readsBank0 i
  case true =>
    obtain ⟨imm, body, hexec, -⟩ := exec_of_readsBank0 hreads s
    rcases withImm24_cases s imm body with ⟨-, h⟩ | ⟨-, h⟩ <;> simp [hexec, h]
  case false =>
    rcases exec_of_shift hreads hluiui s with ⟨b, h, -⟩ | ⟨h, -⟩ <;> simp [h]

/-- Settles O22: the term with bank 3 is refused, any other `LUIui` completes, and no other instruction is refused. -/
theorem onlyBank3IsRefused : Obligations.OnlyBank3IsRefused := by
  intro i s r
  cases hluiui : isLuiui i
  case true =>
    obtain ⟨x, imm, rfl⟩ := eq_luiui_of_isLuiui hluiui
    simp [exec_luiui_refused_iff]
  case false =>
    have hne : ¬∃ imm, i = .luiui 3#2 imm := by
      rintro ⟨imm, rfl⟩
      cases hluiui
    simp [exec_ne_refused hluiui, hne]

/-- An instruction that completes advances `pc` by one and keeps the program store (R15, R16). -/
theorem exec_next_pc_program {i : Instr} {s s' : State} (h : exec i s = .next s') :
    s'.pc = s.pc + 1 ∧ s'.program = s.program := by
  obtain ⟨x, imm, -, -, rfl⟩ | ⟨-, -, -, b, rfl, -, -, -, hpc, hprogram⟩ := exec_next_cases h
  · exact ⟨rfl, rfl⟩
  · exact ⟨congrArg (· + 1) hpc, hprogram⟩

/-! A step by the word at `pc`. -/

section
variable {s : State} {w : InstrWord} {i : Instr} {reason : NoMeaning}

theorem step_of_decode_ok (hword : s.program[s.pc]? = some w) (hdecode : decode w = .ok i) : step s = exec i s := by
  simp [step, State.fetch, hword, hdecode]

theorem step_of_decode_error (hword : s.program[s.pc]? = some w) (hdecode : decode w = .error reason) :
    step s = .refused (.noMeaning reason s.pc) := by
  simp [step, State.fetch, hword, hdecode, refuseWord]

theorem step_at_end (h : s.pc = s.program.length) : step s = .refused (.endOfProgram s.pc) := by
  simp [step, State.fetch, h]

theorem step_beyond (h : s.program.length < s.pc) : step s = .refused (.noWordAtPc s.pc) := by
  simp [step, State.fetch, List.getElem?_eq_none h.le, h.ne']

/-- Inside the program a step completes, traps or refuses a word without meaning, with the index of the word (R76). -/
theorem step_inside_cases (h : s.pc < s.program.length) :
    (∃ s', step s = .next s') ∨ (∃ cause, step s = .fault (.trap cause s.pc)) ∨
      (∃ reason, step s = .refused (.noMeaning reason s.pc)) := by
  have hword := List.getElem?_eq_getElem h
  cases hdecode : decode s.program[s.pc] with
  | error reason => exact .inr (.inr ⟨reason, step_of_decode_error hword hdecode⟩)
  | ok i =>
    rw [step_of_decode_ok hword hdecode]
    cases hexec : exec i s with
    | next s' => exact .inl ⟨s', rfl⟩
    | fault f =>
      obtain ⟨-, -, rfl⟩ | ⟨-, rfl⟩ := (faultsExactlyAsListed i s f).mp hexec
      · exact .inr (.inl ⟨_, rfl⟩)
      · exact .inr (.inl ⟨_, rfl⟩)
    | refused r =>
      obtain ⟨-, rfl⟩ := (onlyBank3IsRefused i s r).mp hexec
      exact .inr (.inr ⟨_, rfl⟩)

/-- A step that completes was inside the program, and stays in it or comes to its end (R15, R83). -/
theorem step_next_pc_program {s' : State} (h : step s = .next s') :
    s.pc < s.program.length ∧ s'.pc = s.pc + 1 ∧ s'.program = s.program ∧ PcInProgram s' := by
  obtain ⟨w, i, hword, -, hexec⟩ := step_next_cases h
  obtain ⟨hinside, -⟩ := List.getElem?_eq_some_iff.mp hword
  obtain ⟨hpc, hprogram⟩ := exec_next_pc_program hexec
  refine ⟨hinside, hpc, hprogram, ?_⟩
  rw [PcInProgram, hpc, hprogram]
  exact hinside

end

/-- Settles O9. -/
theorem stepRunsDecodedInstruction : Obligations.StepRunsDecodedInstruction :=
  fun _ _ _ => step_of_decode_ok

/-- Settles O11. -/
theorem stepOutcomes : Obligations.StepOutcomes :=
  fun _ => ⟨step_inside_cases, step_at_end, step_beyond⟩

/-- Settles O12. -/
theorem stepAdvancesPcAndKeepsProgram : Obligations.StepAdvancesPcAndKeepsProgram :=
  fun _ _ => step_next_pc_program

/-! The run to its end. -/

/-- The run from `s` comes to one of the three ends of R83 within `limit` steps, and a trap or a refusal names the state
it stopped in. -/
def EndsWithin (limit : Nat) (s : State) : Prop :=
  (∃ s', runEnd limit s = some (.done s') ∧ s'.pc = s.program.length ∧ s'.program = s.program) ∨
  (∃ cause before, runEnd limit s = some (.trap cause before.pc before) ∧
      s.pc ≤ before.pc ∧ before.pc < s.program.length ∧ step before = .fault (.trap cause before.pc)) ∨
  (∃ reason before, runEnd limit s = some (.refused reason before.pc before) ∧
      s.pc ≤ before.pc ∧ before.pc < s.program.length ∧ step before = .refused (.noMeaning reason before.pc))

section
variable {s s' : State} {limit : Nat}

theorem endsWithin_of_done (h : s.pc = s.program.length) : EndsWithin limit s := by
  refine .inl ⟨s, ?_, h, rfl⟩
  cases limit <;> simp [runEnd, h]

theorem endsWithin_of_trap (hinside : s.pc < s.program.length) {cause : Cause}
    (h : step s = .fault (.trap cause s.pc)) : EndsWithin (limit + 1) s :=
  .inr (.inl ⟨cause, s, by simp [runEnd, hinside.ne, h], le_rfl, hinside, h⟩)

theorem endsWithin_of_refused (hinside : s.pc < s.program.length) {reason : NoMeaning}
    (h : step s = .refused (.noMeaning reason s.pc)) : EndsWithin (limit + 1) s :=
  .inr (.inr ⟨reason, s, by simp [runEnd, hinside.ne, h], le_rfl, hinside, h⟩)

theorem runEnd_of_next (h : step s = .next s') : runEnd (limit + 1) s = runEnd limit s' := by
  simp [runEnd, (step_next_pc_program h).1.ne, h]

/-- The end of a run is the end of the run from the next state. -/
theorem endsWithin_of_next (h : step s = .next s') (hends : EndsWithin limit s') : EndsWithin (limit + 1) s := by
  obtain ⟨-, hpc, hprogram, -⟩ := step_next_pc_program h
  have hle : s.pc ≤ s'.pc := hpc ▸ Nat.le_succ _
  rw [EndsWithin, hprogram] at hends
  rw [EndsWithin, runEnd_of_next h]
  obtain hdone | ⟨cause, before, hrun, hfrom, hto, hstep⟩ | ⟨reason, before, hrun, hfrom, hto, hstep⟩ := hends
  · exact .inl hdone
  · exact .inr (.inl ⟨cause, before, hrun, hle.trans hfrom, hto, hstep⟩)
  · exact .inr (.inr ⟨reason, before, hrun, hle.trans hfrom, hto, hstep⟩)

end

/-- A run ends within the number of words that are left, by induction on that number. -/
theorem endsWithin_of_words_left (limit : Nat) (s : State) (h : s.pc + limit = s.program.length) :
    EndsWithin limit s := by
  induction limit generalizing s with
  | zero => exact endsWithin_of_done h
  | succ limit ih =>
    have hinside : s.pc < s.program.length := by omega
    rcases step_inside_cases hinside with ⟨s', hstep⟩ | ⟨cause, hstep⟩ | ⟨reason, hstep⟩
    · obtain ⟨-, hpc, hprogram, -⟩ := step_next_pc_program hstep
      exact endsWithin_of_next hstep (ih s' (by rw [hpc, hprogram]; omega))
    · exact endsWithin_of_trap hinside hstep
    · exact endsWithin_of_refused hinside hstep

/-- Settles O13: the words left are the length less `pc`. -/
theorem runEndsWithinProgramLength : Obligations.RunEndsWithinProgramLength :=
  fun s hpc => endsWithin_of_words_left _ s (Nat.add_sub_of_le hpc)

/-! The host's supply (R82) and the first step. -/

/-- Placing a word keeps every other word that was there. -/
theorem placeWord_getElem?_other {program : List InstrWord} {j k : Nat} (hk : k < program.length) (hne : k ≠ j)
    (w : InstrWord) : (placeWord program j w)[k]? = program[k]? := by
  induction program generalizing j k with
  | nil => cases hk
  | cons first rest ih =>
    cases j with
    | zero =>
      cases k with
      | zero => exact absurd rfl hne
      | succ k => rfl
    | succ j =>
      cases k with
      | zero => rfl
      | succ k => simpa [placeWord] using ih (Nat.lt_of_succ_lt_succ hk) (fun h => hne (congrArg _ h))

/-- A word read back from its number is itself (R27). -/
theorem instrWordOfNat_toNat (w : InstrWord) : instrWordOfNat 24 w.toNat = w :=
  BitVec.eq_of_toNat_eq (by simpa [instrWordOfNat] using w.isLt)

/-- The program after a word was placed where the next step fetches. -/
theorem withFetchWord_program (s : State) (w : InstrWord) :
    (s.withFetchWord 24 w.toNat).program = placeWord s.program s.pc w := by
  simp [State.withFetchWord, instrWordOfNat_toNat]

/-- Settles O10: the placed word stands at `pc` and decodes to its instruction. -/
theorem placedWordIsRunNext : Obligations.PlacedWordIsRunNext := by
  intro s i hwf
  refine ⟨step_of_decode_ok ?_ (decode_encode hwf), fun k hk hne => ?_⟩
  · rw [withFetchWord_program]
    exact placeWord_getElem?_same s.program s.pc (encode i)
  · rw [withFetchWord_program]
    exact placeWord_getElem?_other hk hne _

/-- Right after reset no bank is valid (R14, R19). -/
theorem bankValid_of_afterReset {resetPc : Nat} {s : State} (h : AfterReset resetPc s) (k : Nat) :
    s.bankValid k = false := by
  simp [State.bankValid, h.1]

/-- Settles O14. -/
theorem resetState : Obligations.ResetState :=
  ⟨fun resetPc => ⟨resetAt_uimmValid resetPc, resetAt_pc resetPc⟩, rfl⟩

/-- Settles O15: a reader of bank 0 traps while the bank is not valid. -/
theorem firstReaderAfterResetTraps : Obligations.FirstReaderAfterResetTraps := by
  rintro resetPc s i hreset hreads
  rw [exec_of_readsBank0_stale hreads (bankValid_of_afterReset hreset 0), hreset.2]

/-- Settles O46: the first step is a step at `pc = RESET_PC`. -/
theorem runStartsAtResetPc : Obligations.RunStartsAtResetPc := by
  refine ⟨fun resetPc program => ⟨⟨startRun_uimmValid resetPc program, startRun_pc resetPc program⟩,
    startRun_program resetPc program⟩, ?_⟩
  rintro _ s ⟨-, rfl⟩
  exact ⟨fun _ _ => step_of_decode_ok, fun _ _ => step_of_decode_error, fun h => step_at_end h.symm, step_beyond⟩

/-- Settles O5: the decoder gives the word no meaning, and the step names the index. -/
theorem wordsWithoutMeaningAreRefused : Obligations.WordsWithoutMeaningAreRefused :=
  fun _ _ hword =>
    ⟨fun hop => step_of_decode_error hword (decode_of_otherOpclass hop),
      fun htop => step_of_decode_error hword (decode_of_unassignedSubop htop),
      fun htop hres => step_of_decode_error hword (decode_of_luiuiReservedBits htop hres),
      fun htop => step_of_decode_error hword (decode_of_luiuiBank3 htop),
      fun htop hres => step_of_decode_error hword (decode_of_i5ReservedBits htop hres)⟩

end Sys2Proof.Machine
end

section
/-!
The atomic window (`40_upper_immediate.md` section 3, `70_reset_and_hazards.md` section 3): which bits an instruction
leaves set, and the invariant that ties a valid bank to the run of `LUIui`s directly before `pc`.
-/

namespace Sys2Proof.Machine

open Sys2Proof.Safety

/-- Every completed instruction but `LUIui` ends in `complete`, which clears the bits (R42). -/
theorem uimmValid_of_exec_next {i : Instr} {s s' : State} (hluiui : isLuiui i = false) (h : exec i s = .next s') :
    s'.uimmValid = 0b000#3 := by
  obtain ⟨x, imm, rfl, -⟩ | ⟨-, -, -, b, rfl, -⟩ := exec_next_cases h
  · cases hluiui
  · rfl

/-- A `LUIui` that completes names bank 0, 1 or 2 (R44). -/
theorem bank_ne_three_of_exec_next {x : BankNum} {imm : Imm12} {s s' : State}
    (h : exec (.luiui x imm) s = .next s') : x ≠ 3#2 := by
  rintro rfl
  simp [exec_luiui_bank3] at h

/-- Settles O16. -/
theorem windowOpensAndCloses : Obligations.WindowOpensAndCloses := by
  refine fun i s s' h => ⟨?_, fun hluiui => uimmValid_of_exec_next hluiui h⟩
  rintro x imm rfl k hk
  exact (exec_luiui_banks (bank_ne_three_of_exec_next h) h hk).2

/-- A bank that is valid is one of the three (R14). -/
theorem bankNum_ne_three_of_bankValid {x : BankNum} {s : State} (h : s.bankValid x.toNat = true) : x ≠ 3#2 := by
  rintro rfl
  simp [State.bankValid] at h

/-! The value the window gives a bank, one word back. -/

section
variable {program : List InstrWord} {p : Nat} {w : InstrWord} {x y : BankNum} {imm value : Imm12}

theorem windowValue_after_luiui (hword : program[p]? = some w) (hdecode : decode w = .ok (.luiui y imm)) :
    windowValue program (p + 1) x = if y = x then some imm else windowValue program p x := by
  simp [windowValue, hword, hdecode]

/-- Where the window gives a bank a value, the word directly before is a `LUIui`. -/
theorem luiui_before_of_windowValue (h : windowValue program p x = some value) :
    0 < p ∧ ∃ y imm, (program[p - 1]?).map decode = some (.ok (.luiui y imm)) := by
  unfold windowValue at h
  split at h
  · cases h
  · split at h
    next y imm hword => exact ⟨Nat.succ_pos _, y, imm, hword⟩
    · cases h

end

/-- A state without a valid bank meets the invariant. -/
theorem windowMatchesProgram_of_closed {s : State} (h : s.uimmValid = 0b000#3) : WindowMatchesProgram s := by
  intro x hvalid
  simp [State.bankValid, h] at hvalid

/-- `LUIui` keeps the invariant: the bank it names holds its immediate, and any other valid bank was valid before and is
given its value further back (R40, R41). -/
theorem windowMatchesProgram_of_luiui {s s' : State} {w : InstrWord} {y : BankNum} {imm : Imm12}
    (hmatch : WindowMatchesProgram s) (hword : s.program[s.pc]? = some w) (hdecode : decode w = .ok (.luiui y imm))
    (hnext : exec (.luiui y imm) s = .next s') : WindowMatchesProgram s' := by
  intro x hvalid
  have hx : x.toNat < 3 := Nat.lt_succ_of_le (bankNum_toNat_le (bankNum_ne_three_of_bankValid hvalid))
  obtain ⟨hbank, hbit⟩ := exec_luiui_banks (bank_ne_three_of_exec_next hnext) hnext hx
  obtain ⟨hpc, hprogram⟩ := exec_next_pc_program hnext
  rw [hpc, hprogram, windowValue_after_luiui hword hdecode, hbank]
  by_cases hyx : y = x
  · simp [hyx]
  · have hne : x.toNat ≠ y.toNat := fun e => hyx (BitVec.eq_of_toNat_eq e.symm)
    have hold : s.bankValid x.toNat = true := by simpa [hne, hbit] using hvalid
    simp [hyx, hne, hmatch x hold]

/-- Settles O17: a `LUIui` extends the run of `LUIui`s, and any other instruction closes the window. -/
theorem stepKeepsWindowInvariant : Obligations.StepKeepsWindowInvariant := by
  intro s s' hmatch hstep
  obtain ⟨w, i, hword, hdecode, hexec⟩ := step_next_cases hstep
  cases hluiui : isLuiui i
  case false => exact windowMatchesProgram_of_closed (uimmValid_of_exec_next hluiui hexec)
  case true =>
    obtain ⟨y, imm, rfl⟩ := eq_luiui_of_isLuiui hluiui
    exact windowMatchesProgram_of_luiui hmatch hword hdecode hexec

/-- Settles O18. -/
theorem windowInvariantAfterReset : Obligations.WindowInvariantAfterReset :=
  fun _ _ hreset => windowMatchesProgram_of_closed hreset.1

/-- A reader of bank 0 that completes found bank 0 valid (R43). -/
theorem bankValid_of_reader_completes {i : Instr} {s s' : State} (hreads : readsBank0 i = true)
    (h : exec i s = .next s') : s.bankValid 0 = true := by
  by_contra hstale
  rw [exec_of_readsBank0_stale hreads (Bool.eq_false_of_not_eq_true hstale)] at h
  cases h

/-- Settles O19: the reader found bank 0 valid, and the invariant says where its value comes from. -/
theorem completedReaderUsesWindowValue : Obligations.CompletedReaderUsesWindowValue := by
  intro s s' w i hmatch hword hdecode hreads hstep
  rw [step_of_decode_ok hword hdecode] at hstep
  have hvalue : windowValue s.program s.pc 0#2 = some (bankOf s.uimm 0) :=
    hmatch 0#2 (bankValid_of_reader_completes hreads hstep)
  obtain ⟨hpos, hbefore⟩ := luiui_before_of_windowValue hvalue
  exact ⟨hpos, hvalue, hbefore⟩

end Sys2Proof.Machine
end

section
/-!
What an instruction does not read (`10_state.md` section 7). A change `f` of the state before an instruction that
passes over each of its writes, and that completion turns into a change `g`, shows in the outcome as `g` alone. This is
said once for all instructions; validity bits, `uimm`, other registers, `pc`, the program and the draws are cases of it.
-/

namespace Sys2Proof.Machine

open Sys2Proof.Safety

/-- `DR[t]` is not seen to change under `f`, `f` passes over the writes of an instruction with register field `t`, and
is `g` once the instruction completes. -/
structure PassesOver (t : RegNum) (f g : State → State) : Prop where
  readDR : ∀ s, (f s).readDR t = s.readDR t
  writeDR : ∀ s v, (f s).writeDR t v = f (s.writeDR t v)
  setZ : ∀ s b, (f s).setZ b = f (s.setZ b)
  setC : ∀ s b, (f s).setC b = f (s.setC b)
  complete : ∀ s, (f s).complete = g s.complete

/-- `f` passes over the draws of an instruction with register field `t` (R55, R56). -/
structure PassesOverDraws (t : RegNum) (f : State → State) : Prop where
  drawDR : ∀ s, (f s).drawDR t = f (s.drawDR t)
  drawZ : ∀ s, (f s).drawZ = f s.drawZ
  drawC : ∀ s, (f s).drawC = f s.drawC

section
variable {t : RegNum} {f g : State → State} {s s' : State}

theorem PassesOver.writeResult (hf : PassesOver t f g) (s : State) (w : Word) :
    (f s).writeResult t w = f (s.writeResult t w) := by
  simp only [State.writeResult, hf.writeDR, hf.setZ]

theorem withImm24_passesOver (hf : PassesOver t f g) {imm : Imm12} {body body' : Word → State}
    (hvalid : (f s).bankValid 0 = s.bankValid 0) (himm : (f s).imm24 imm = s.imm24 imm)
    (hbody : ∀ b, body' b = f (body b)) (h : withImm24 imm s body = .next s') :
    withImm24 imm (f s) body' = .next (g s') := by
  rcases withImm24_cases s imm body with ⟨hv, hnext⟩ | ⟨-, hfault⟩
  · cases hnext.symm.trans h
    rw [withImm24_of_valid (hvalid.trans hv), himm, hbody, hf.complete]
  · cases hfault.symm.trans h

theorem shiftRotate_passesOver (hf : PassesOver t f g) {kind : ShiftKind} {amount : Imm5}
    (hdraws : amount.toNat = 0 ∨ 24 ≤ amount.toNat → PassesOverDraws t f)
    (h : shiftRotate kind amount t s = .next s') : shiftRotate kind amount t (f s) = .next (g s') := by
  rcases shiftRotate_cases kind t s amount with ⟨hzero, hnext⟩ | ⟨hlow, hhigh, hnext⟩ | ⟨hbeyond, hnext⟩
  · cases hnext.symm.trans h
    rw [shiftRotate_of_zero kind t _ hzero, hf.readDR, hf.setZ, (hdraws (.inl hzero)).drawC, hf.complete]
  · cases hnext.symm.trans h
    rw [shiftRotate_of_within kind t _ (by omega) (by omega), hf.readDR, hf.writeResult, hf.setC, hf.complete]
  · cases hnext.symm.trans h
    obtain ⟨hdrawDR, hdrawZ, hdrawC⟩ := hdraws (.inr hbeyond)
    rw [shiftRotate_of_beyond kind t _ hbeyond, hdrawDR, hdrawZ, hdrawC, hf.complete]

theorem checkedShift_passesOver (hf : PassesOver t f g) {kind : ShiftKind} {amount : Imm5}
    (hdraws : amount.toNat = 0 → PassesOverDraws t f)
    (h : checkedShift kind amount t s = .next s') : checkedShift kind amount t (f s) = .next (g s') := by
  by_cases hrange : amount.toNat < 24
  · rw [checkedShift_of_range kind t _ hrange] at h ⊢
    exact shiftRotate_passesOver hf (fun hopen => hdraws (by omega)) h
  · rw [checkedShift_of_beyond kind t s (by omega)] at h
    cases h

end

section
variable {i : Instr} {s s₂ : State} {f g : State → State}

/-- A change that no operation of an instruction sees, for an instruction that completes: it completes with the change
`g`. For `LUIui`, which has no shared operations, the next state itself is compared. -/
theorem exec_next_passesOver
    (hoperand : readsBank0 i = true → (f s).bankValid 0 = s.bankValid 0 ∧ ∀ imm, (f s).imm24 imm = s.imm24 imm)
    (hluiui : ∀ x imm, i = .luiui x imm →
      ({ f s with uimm := withBank (f s).uimm x imm }.openWindow x).advance =
        g ({ s with uimm := withBank s.uimm x imm }.openWindow x).advance)
    (hregs : ∀ t, regOf i = some t → PassesOver t f g ∧ (leavesOpen i = true → PassesOverDraws t f))
    {s' : State} (h : exec i s = .next s') : exec i (f s) = .next (g s') := by
  cases i with
  | luiui x imm =>
    have hx := bank_ne_three_of_exec_next h
    rw [exec_luiui hx] at h ⊢
    cases h
    rw [hluiui x imm rfl]
  | movui imm t | andui imm t | orui imm t | xorui imm t =>
    obtain ⟨hvalid, himm⟩ := hoperand rfl
    obtain ⟨hf, -⟩ := hregs t rfl
    simp only [exec_movui, exec_andui, exec_orui, exec_xorui] at h ⊢
    refine withImm24_passesOver hf hvalid (himm imm) (fun b => ?_) h
    simp only [hf.readDR, hf.writeResult]
  | addui imm t | subui imm t | cmpui imm t =>
    obtain ⟨hvalid, himm⟩ := hoperand rfl
    obtain ⟨hf, -⟩ := hregs t rfl
    simp only [exec_addui, exec_subui, exec_cmpui] at h ⊢
    refine withImm24_passesOver hf hvalid (himm imm) (fun b => ?_) h
    simp only [hf.readDR, hf.writeResult, hf.setZ, hf.setC]
  | shlui amount t | rolui amount t | shrui amount t | rorui amount t =>
    obtain ⟨hf, hdraws⟩ := hregs t rfl
    simp only [exec_shlui, exec_rolui, exec_shrui, exec_rorui] at h ⊢
    exact shiftRotate_passesOver hf (fun hopen => hdraws (by simpa [leavesOpen] using hopen)) h
  | shluiv amount t | shruiv amount t =>
    obtain ⟨hf, hdraws⟩ := hregs t rfl
    simp only [exec_shluiv, exec_shruiv] at h ⊢
    exact checkedShift_passesOver hf (fun hopen => hdraws (by simpa [leavesOpen] using hopen)) h

/-- Two states that agree on `pc` and, for a reader, on the validity of bank 0 trap and are refused alike, so an
outcome is known from its next states (R43, R44, R67). -/
theorem exec_eq_mapNext_of_next (hvalid : readsBank0 i = true → s₂.bankValid 0 = s.bankValid 0) (hpc : s₂.pc = s.pc)
    (hnext : ∀ s', exec i s = .next s' → exec i s₂ = .next (g s')) : exec i s₂ = mapNext g (exec i s) := by
  cases h : exec i s with
  | next s' => exact hnext s' h
  | fault fault =>
    refine (faultsExactlyAsListed i s₂ fault).mpr ?_
    rw [hpc]
    obtain ⟨hreads, hstale, hfault⟩ | hrange := (faultsExactlyAsListed i s fault).mp h
    · exact .inl ⟨hreads, (hvalid hreads).trans hstale, hfault⟩
    · exact .inr hrange
  | refused r =>
    refine (onlyBank3IsRefused i s₂ r).mpr ?_
    rw [hpc]
    exact (onlyBank3IsRefused i s r).mp h

theorem mapNext_id (o : StepOutcome) : mapNext (fun s => s) o = o := by
  cases o <;> rfl

end

/-! The changes the statements speak of. -/

section
variable (t : RegNum)

theorem passesOver_uimmValid (bits : UimmValid) :
    PassesOver t (fun s => { s with uimmValid := bits }) (fun s => s) ∧
      PassesOverDraws t (fun s => { s with uimmValid := bits }) :=
  ⟨⟨fun _ => rfl, fun _ _ => rfl, fun _ _ => rfl, fun _ _ => rfl, fun _ => rfl⟩,
    ⟨fun _ => rfl, fun _ => rfl, fun _ => rfl⟩⟩

theorem passesOver_uimm (u : Uimm) :
    PassesOver t (fun s => { s with uimm := u }) (fun s => { s with uimm := u }) ∧
      PassesOverDraws t (fun s => { s with uimm := u }) :=
  ⟨⟨fun _ => rfl, fun _ _ => rfl, fun _ _ => rfl, fun _ _ => rfl, fun _ => rfl⟩,
    ⟨fun _ => rfl, fun _ => rfl, fun _ => rfl⟩⟩

theorem passesOver_pc_program (pc : Nat) (program : List InstrWord) :
    PassesOver t (fun s => { s with pc := pc, program := program })
        (fun s => { s with pc := pc + 1, program := program }) ∧
      PassesOverDraws t (fun s => { s with pc := pc, program := program }) :=
  ⟨⟨fun _ => rfl, fun _ _ => rfl, fun _ _ => rfl, fun _ _ => rfl, fun _ => rfl⟩,
    ⟨fun _ => rfl, fun _ => rfl, fun _ => rfl⟩⟩

theorem passesOver_draws (d : Nat) :
    PassesOver t (fun s => { s with draws := d }) (fun s => { s with draws := d }) :=
  ⟨fun _ => rfl, fun _ _ => rfl, fun _ _ => rfl, fun _ _ => rfl, fun _ => rfl⟩

/-- Writes to two registers commute (R10). -/
theorem writeDR_comm {t u : RegNum} (hne : u ≠ t) (s : State) (v w : Word) :
    (s.writeDR u v).writeDR t w = (s.writeDR t w).writeDR u v := by
  have hindex : u.toNat ≠ t.toNat := fun e => hne (BitVec.eq_of_toNat_eq e)
  simp [State.writeDR, Vector.set_comm _ _ hindex]

theorem passesOver_otherRegister {t u : RegNum} (hne : u ≠ t) (v : Word) :
    PassesOver t (fun s => s.writeDR u v) (fun s => s.writeDR u v) ∧ PassesOverDraws t (fun s => s.writeDR u v) :=
  ⟨⟨fun s => readDR_writeDR_other s u t v hne.symm, fun s w => writeDR_comm hne s v w, fun _ _ => rfl,
      fun _ _ => rfl, fun _ => rfl⟩,
    ⟨fun s => congrArg (fun r : State => { r with draws := s.draws + 1 }) (writeDR_comm hne s v _), fun _ => rfl,
      fun _ => rfl⟩⟩

end

theorem ne_luiui_of_isLuiui {i : Instr} (hluiui : isLuiui i = false) {x : BankNum} {imm : Imm12} :
    i ≠ .luiui x imm := by
  rintro rfl
  cases hluiui

/-- Settles O20: the bits are read at bank 0 alone, and completion clears them. -/
theorem onlyBank0ValidityIsRead : Obligations.OnlyBank0ValidityIsRead := by
  intro i s bits hluiui hbit
  have hmap := exec_eq_mapNext_of_next (i := i) (s := s) (s₂ := { s with uimmValid := bits }) (fun _ => hbit) rfl
    fun s' => exec_next_passesOver (f := fun s => { s with uimmValid := bits }) (fun _ => ⟨hbit, fun _ => rfl⟩)
      (fun x imm h => absurd h (ne_luiui_of_isLuiui hluiui))
      fun t _ => (passesOver_uimmValid t bits).imp_right fun hdraws _ => hdraws
  rw [hmap, mapNext_id]

/-- Settles O25: a write to another register passes over all writes of an instruction. -/
theorem otherRegistersNeitherReadNorWritten : Obligations.OtherRegistersNeitherReadNorWritten := by
  intro i s u v hreg
  refine exec_eq_mapNext_of_next (fun _ => rfl) rfl fun s' =>
    exec_next_passesOver (f := fun s => s.writeDR u v) (g := fun s => s.writeDR u v) (fun _ => ⟨rfl, fun _ => rfl⟩)
      (fun x imm _ => rfl) fun t ht => ?_
  have hne : u ≠ t := fun e => hreg (e ▸ ht)
  exact (passesOver_otherRegister hne v).imp_right fun hdraws _ => hdraws

/-- Settles O27: `pc` and the program pass over every write, and completion advances the `pc` it finds. -/
theorem pcAndProgramNotRead : Obligations.PcAndProgramNotRead := by
  intro i s s' pc program
  exact exec_next_passesOver (f := fun s => { s with pc := pc, program := program })
    (g := fun s => { s with pc := pc + 1, program := program }) (fun _ => ⟨rfl, fun _ => rfl⟩) (fun x imm _ => rfl)
    fun t _ => (passesOver_pc_program t pc program).imp_right fun hdraws _ => hdraws

/-- Settles O28: the count of draws passes over every write but a draw, and a form that leaves nothing open draws
nothing. -/
theorem drawsOnlyWhereOpen : Obligations.DrawsOnlyWhereOpen := by
  intro i s d hclosed
  refine exec_eq_mapNext_of_next (fun _ => rfl) rfl fun s' =>
    exec_next_passesOver (f := fun s => { s with draws := d }) (fun _ => ⟨rfl, fun _ => rfl⟩) (fun x imm _ => rfl)
      fun t _ => ⟨passesOver_draws t d, fun hopen => ?_⟩
  simp [hclosed] at hopen

/-! The banks of `uimm` (R13). -/

/-- The operand reads bank 0 alone (R31). -/
theorem imm24_of_bank0_eq {s : State} {u : Uimm} (hbank : u.toNat % 4096 = s.uimm.toNat % 4096) (imm : Imm12) :
    State.imm24 { s with uimm := u } imm = s.imm24 imm :=
  BitVec.eq_of_toNat_eq (by rw [imm24_toNat, imm24_toNat, hbank])

/-- No instruction but `LUIui` writes `uimm` (R13). -/
theorem uimm_of_exec_next {i : Instr} {s s' : State} (hluiui : isLuiui i = false) (h : exec i s = .next s') :
    s'.uimm = s.uimm := by
  obtain ⟨x, imm, hi, -⟩ | ⟨-, -, -, b, rfl, -, -, huimm, -⟩ := exec_next_cases h
  · exact absurd hi (ne_luiui_of_isLuiui hluiui)
  · exact huimm

/-- The banks after `LUIui`, as numbers. -/
theorem exec_luiui_bank_toNat {x : BankNum} (hx : x ≠ 3#2) {imm : Imm12} {s s' : State}
    (h : exec (.luiui x imm) s = .next s') {k : Nat} (hk : k < 3) :
    s'.uimm.toNat / 2 ^ (12 * k) % 4096 =
      if k = x.toNat then imm.toNat else s.uimm.toNat / 2 ^ (12 * k) % 4096 := by
  rw [← bankOf_toNat, ← bankOf_toNat, (exec_luiui_banks hx h hk).1, apply_ite BitVec.toNat]

/-- Settles O24: the banks after `LUIui`, the frame of the others, and the operand's one bank. -/
theorem uimmBanks : Obligations.UimmBanks := by
  refine ⟨fun x imm s hx => ?_, fun i s s' => uimm_of_exec_next, fun i s u hluiui hbank => ?_⟩
  · have hnext := exec_luiui hx imm s
    exact ⟨_, hnext, fun k hk => exec_luiui_bank_toNat hx hnext hk⟩
  · exact exec_eq_mapNext_of_next (fun _ => rfl) rfl fun s' =>
      exec_next_passesOver (f := fun s => { s with uimm := u })
        (fun hreads => ⟨rfl, imm24_of_bank0_eq (hbank hreads)⟩)
        (fun x imm h => absurd h (ne_luiui_of_isLuiui hluiui))
        fun t _ => (passesOver_uimm t u).imp_right fun hdraws _ => hdraws

/-! The two one-sided readers (R10, R18). -/

/-- A second write to a register replaces the first (R10). -/
theorem writeDR_writeDR (s : State) (t : RegNum) (v w : Word) : (s.writeDR t v).writeDR t w = s.writeDR t w := by
  simp [State.writeDR]

/-- `MOVui` writes over whatever its register held (R46). -/
theorem exec_movui_writeDR (imm : Imm12) (t : RegNum) (s : State) (v : Word) :
    exec (.movui imm t) (s.writeDR t v) = exec (.movui imm t) s := by
  have hbody (b : Word) : (s.writeDR t v).writeResult t b = s.writeResult t b := by
    rw [State.writeResult, writeDR_writeDR, State.writeResult]
  simp only [exec_movui, hbody]
  rfl

/-- `CMPui` writes flags alone (R64). -/
theorem allRegsKept_of_cmpui {imm : Imm12} {t : RegNum} {s s' : State} (h : exec (.cmpui imm t) s = .next s') :
    AllRegsKept s s' := by
  have hvalid := bankValid_of_reader_completes rfl h
  rw [exec_cmpui, withImm24_of_valid hvalid] at h
  cases h
  exact fun _ => rfl

/-- Settles O26. -/
theorem movDoesNotReadCmpDoesNotWrite : Obligations.MovDoesNotReadCmpDoesNotWrite :=
  ⟨exec_movui_writeDR, fun _ _ _ _ => allRegsKept_of_cmpui⟩

end Sys2Proof.Machine
end

section
/-!
Assembly (`30_encoding.md` section 6) and the pairs of uops the isa level writes (`70_reset_and_hazards.md` section 3).
A line that assembles is one of three forms; a line of two uops is `LUIui #0` and a reader of bank 0, and the reader
finds bank 0 as the `LUIui` left it.
-/

namespace Sys2Proof.Machine

open Sys2Proof.Safety

/-! The names of the two tables and what they stand for (R29, R30, R37). -/

section
variable {m : Mnemonic} {mk : Imm12 → RegNum → Instr} {mk5 : Imm5 → RegNum → Instr}

theorem disassemble_of_i12Named (h : i12Named m = some mk) (imm : Imm12) (t : RegNum) :
    disassemble (mk imm t) = ⟨m, [imm.toNat], some t.toNat⟩ := by
  unfold i12Named at h
  split at h <;> cases h <;> rfl

theorem disassemble_of_i5Named (h : i5Named m = some mk5) (amount : Imm5) (t : RegNum) :
    disassemble (mk5 amount t) = ⟨m, [amount.toNat], some t.toNat⟩ := by
  unfold i5Named at h
  split at h <;> cases h <;> rfl

theorem wellFormed_of_i12Named (h : i12Named m = some mk) (imm : Imm12) (t : RegNum) :
    (mk imm t).wellFormed = true := by
  unfold i12Named at h
  split at h <;> cases h <;> rfl

theorem wellFormed_of_i5Named (h : i5Named m = some mk5) (amount : Imm5) (t : RegNum) :
    (mk5 amount t).wellFormed = true := by
  unfold i5Named at h
  split at h <;> cases h <;> rfl

/-- The instructions that take `#imm12, DRt` are the seven that read bank 0 (R13, R29). -/
theorem readsBank0_of_i12Named (h : i12Named m = some mk) (imm : Imm12) (t : RegNum) :
    readsBank0 (mk imm t) = true := by
  unfold i12Named at h
  split at h <;> cases h <;> rfl

/-- No name stands in both tables. -/
theorem i12Named_eq_none_of_i5Named (h : i5Named m = some mk5) : i12Named m = none := by
  unfold i5Named at h
  split at h <;> cases h <;> rfl

/-! A line with operands in range assembles. -/

theorem assembleUop_i12_operands (h : i12Named m = some mk) (imm : Imm12) (t : RegNum) :
    assembleUop ⟨m, [imm.toNat], some t.toNat⟩ = some (mk imm t) := by
  simpa using assembleUop_i12 h (Nat.le_of_lt_succ imm.isLt) t

theorem assembleUop_i5_operands (h : i5Named m = some mk5) (amount : Imm5) (t : RegNum) :
    assembleUop ⟨m, [amount.toNat], some t.toNat⟩ = some (mk5 amount t) := by
  have hamount : amount.toNat ≤ 31 := Nat.le_of_lt_succ amount.isLt
  have ht : t.toNat ≤ 15 := Nat.le_of_lt_succ t.isLt
  simp [assembleUop, i12Named_eq_none_of_i5Named h, h, hamount, ht]

end

/-- The line of a well-formed instruction assembles to it. -/
theorem assembleUop_disassemble {i : Instr} (hwf : i.wellFormed = true) : assembleUop (disassemble i) = some i := by
  cases i with
  | luiui x imm => exact assembleUop_luiui (luiui_wellFormed_iff.mp hwf) imm
  | movui imm t | addui imm t | subui imm t | andui imm t | orui imm t | xorui imm t | cmpui imm t =>
    exact assembleUop_i12_operands rfl imm t
  | shlui amount t | shluiv amount t | rolui amount t | shrui amount t | shruiv amount t | rorui amount t =>
    exact assembleUop_i5_operands rfl amount t

/-- All the lines that assemble: a name of each form with operands in range (R37, D27). -/
theorem assembleUop_cases {l : UopLine} {i : Instr} (h : assembleUop l = some i) :
    (∃ x imm, x ≤ 2 ∧ imm ≤ 4095 ∧ l = ⟨.LUIui, [x, imm], none⟩ ∧
        i = .luiui (BitVec.ofNat 2 x) (BitVec.ofNat 12 imm)) ∨
    (∃ m mk imm t, i12Named m = some mk ∧ imm ≤ 4095 ∧ t ≤ 15 ∧ l = ⟨m, [imm], some t⟩ ∧
        i = mk (BitVec.ofNat 12 imm) (BitVec.ofNat 4 t)) ∨
    (∃ m mk amount t, i5Named m = some mk ∧ amount ≤ 31 ∧ t ≤ 15 ∧ l = ⟨m, [amount], some t⟩ ∧
        i = mk (BitVec.ofNat 5 amount) (BitVec.ofNat 4 t)) := by
  obtain ⟨m, imms, reg⟩ := l
  unfold assembleUop at h
  split at h
  next x imm himms hreg =>
    split at h
    next hrange =>
      obtain ⟨hname, hx, himm⟩ := hrange
      cases h
      cases himms
      cases hreg
      cases hname
      exact .inl ⟨x, imm, hx, himm, rfl, rfl⟩
    · cases h
  next imm t himms hreg =>
    cases himms
    cases hreg
    split at h
    next mk hmk =>
      split at h
      next hrange =>
        cases h
        exact .inr (.inl ⟨m, mk, imm, t, hmk, hrange.1, hrange.2, rfl, rfl⟩)
      · cases h
    next mk _ hmk =>
      split at h
      next hrange =>
        cases h
        exact .inr (.inr ⟨m, mk, imm, t, hmk, hrange.1, hrange.2, rfl, rfl⟩)
      · cases h
    · cases h
  · cases h

/-- A line that assembles is the line of its instruction: no operand was truncated. -/
theorem eq_disassemble_of_assembleUop {l : UopLine} {i : Instr} (h : assembleUop l = some i) :
    l = disassemble i ∧ i.wellFormed = true := by
  obtain ⟨x, imm, hx, himm, rfl, rfl⟩ | ⟨m, mk, imm, t, hmk, himm, ht, rfl, rfl⟩ |
    ⟨m, mk, amount, t, hmk, hamount, ht, rfl, rfl⟩ := assembleUop_cases h
  · have hbank : BitVec.ofNat 2 x ≠ 3#2 := fun e => by
      have := congrArg BitVec.toNat e
      simp at this
      omega
    refine ⟨?_, luiui_wellFormed_iff.mpr hbank⟩
    simp only [disassemble, BitVec.toNat_ofNat]
    rw [Nat.mod_eq_of_lt (by omega), Nat.mod_eq_of_lt (by omega)]
  · refine ⟨?_, wellFormed_of_i12Named hmk _ _⟩
    rw [disassemble_of_i12Named hmk, BitVec.toNat_ofNat, BitVec.toNat_ofNat, Nat.mod_eq_of_lt (by omega),
      Nat.mod_eq_of_lt (by omega)]
  · refine ⟨?_, wellFormed_of_i5Named hmk _ _⟩
    rw [disassemble_of_i5Named hmk, BitVec.toNat_ofNat, BitVec.toNat_ofNat, Nat.mod_eq_of_lt (by omega),
      Nat.mod_eq_of_lt (by omega)]

/-- Settles O7. -/
theorem uopLinesAssembleExactly : Obligations.UopLinesAssembleExactly :=
  ⟨fun _ => assembleUop_disassemble, fun _ _ => eq_disassemble_of_assembleUop⟩

/-! The isa lines of two uops (R38). -/

theorem assembleUops_cons_eq_some {l : UopLine} {rest : List UopLine} {is : List Instr}
    (h : assembleUops (l :: rest) = some is) :
    ∃ i is', assembleUop l = some i ∧ assembleUops rest = some is' ∧ is = i :: is' := by
  unfold assembleUops at h
  split at h <;> cases h
  next i is' hi his => exact ⟨i, is', hi, his, rfl⟩

/-- An isa name that stands for two uops has an `I12` name as the second. -/
theorem i12Named_of_isaTarget {name : IsaName} {m : Mnemonic} (h : isaTarget name = (m, true)) :
    ∃ mk, i12Named m = some mk := by
  cases name <;> cases h <;> exact ⟨_, rfl⟩

/-- The uop line an instruction comes from names it. -/
theorem disassemble_name (i : Instr) : (disassemble i).name = i.mnemonic := by
  cases i <;> rfl

/-- A line with the name of an `I12` instruction assembles to that instruction with the line's operands. -/
theorem i12_of_assembleUop {m : Mnemonic} {mk : Imm12 → RegNum → Instr} (hmk : i12Named m = some mk)
    {n : Nat} {reg : Option Nat} {i : Instr} (h : assembleUop ⟨m, [n], reg⟩ = some i) :
    ∃ imm t, i = mk imm t ∧ n = imm.toNat ∧ reg = some t.toNat := by
  obtain ⟨hline, -⟩ := eq_disassemble_of_assembleUop h
  have hname : i.mnemonic = m := by rw [← disassemble_name, ← hline]
  obtain ⟨imm, t, rfl⟩ := (mnemonic_eq_iff_of_i12Named hmk).mp hname
  rw [disassemble_of_i12Named hmk] at hline
  simp only [UopLine.mk.injEq, List.cons.injEq, and_true, true_and] at hline
  exact ⟨imm, t, rfl, hline.1, hline.2⟩

/-- What an isa line of two uops is, and the two instructions it assembles to. -/
theorem pair_of_assembleIsa {l : IsaLine} {u₁ u₂ : Instr} (h : assembleIsa l = some [u₁, u₂]) :
    ∃ m mk k imm t, isaTarget l.name = (m, true) ∧ i12Named m = some mk ∧ l.imms = [k] ∧ l.reg = some t.toNat ∧
      k ≤ 16777215 ∧ u₁ = .luiui 0#2 (BitVec.ofNat 12 (k / 4096)) ∧ u₂ = mk imm t ∧ k % 4096 = imm.toNat := by
  obtain ⟨lines, hexpand, huops⟩ := Option.bind_eq_some_iff.mp h
  unfold expandIsa at hexpand
  split at hexpand
  · cases hexpand
    obtain ⟨_, is, -, his, hpair⟩ := assembleUops_cons_eq_some huops
    cases his
    cases hpair
  next m htarget =>
    split at hexpand
    next k himms =>
      split at hexpand <;> cases hexpand
      next hk =>
        obtain ⟨i₁, is, hfirst, hrest, hpair⟩ := assembleUops_cons_eq_some huops
        obtain ⟨i₂, is', hsecond, -, rfl⟩ := assembleUops_cons_eq_some hrest
        cases hpair
        rw [assembleUop_luiui_bank0 (by omega)] at hfirst
        cases hfirst
        obtain ⟨mk, hmk⟩ := i12Named_of_isaTarget htarget
        obtain ⟨imm, t, rfl, hlow, hreg⟩ := i12_of_assembleUop hmk hsecond
        exact ⟨m, mk, k, imm, t, htarget, hmk, himms, hreg, hk, rfl, rfl, hlow⟩
    · cases hexpand

/-! The two steps. -/

/-- After `LUIui #0` the operand of the next instruction is the immediate of the one above that of the other (R31). -/
theorem operandNat_after_luiui {hi : Imm12} {s s' : State} (h : exec (.luiui 0#2 hi) s = .next s') (lo : Imm12) :
    operandNat s' lo = hi.toNat * 4096 + lo.toNat := by
  have hbank := exec_luiui_bank_toNat (by decide) h (k := 0) (by decide)
  simp at hbank
  rw [operandNat, hbank]

/-- A reader of bank 0 completes where bank 0 is valid (R43). -/
theorem reader_completes {i : Instr} (hreads : readsBank0 i = true) {s : State} (hvalid : s.bankValid 0 = true) :
    ∃ s', exec i s = .next s' := by
  obtain ⟨imm, body, hexec, -⟩ := exec_of_readsBank0 hreads s
  exact ⟨_, by rw [hexec, withImm24_of_valid hvalid]⟩

/-- `LUIui #0` completes and leaves bank 0 valid (R40). -/
theorem luiui_bank0_completes (hi : Imm12) (s : State) :
    ∃ s', exec (.luiui 0#2 hi) s = .next s' ∧ s'.bankValid 0 = true := by
  have hnext := exec_luiui (x := 0#2) (by decide) hi s
  exact ⟨_, hnext, by simpa using (exec_luiui_banks (by decide) hnext (k := 0) (by decide)).2⟩

/-- `LUIui #0` and a reader of bank 0, one after the other, complete wherever they stand (R79). -/
theorem luiui_reader_steps {hi : Imm12} {i : Instr} (hreads : readsBank0 i = true) (hwf : i.wellFormed = true)
    {s : State} (hfirst : s.program[s.pc]? = some (encode (.luiui 0#2 hi)))
    (hsecond : s.program[s.pc + 1]? = some (encode i)) :
    ∃ s₁ s₂, step s = .next s₁ ∧ step s₁ = .next s₂ ∧ s₂.pc = s.pc + 2 ∧ exec (.luiui 0#2 hi) s = .next s₁ ∧
      exec i s₁ = .next s₂ ∧ s₁.bankValid 0 = true := by
  obtain ⟨s₁, hnext₁, hvalid⟩ := luiui_bank0_completes hi s
  obtain ⟨s₂, hnext₂⟩ := reader_completes hreads hvalid
  obtain ⟨hpc₁, hprogram₁⟩ := exec_next_pc_program hnext₁
  have hstep₁ := step_of_decode_ok hfirst (decode_wordL (by decide) hi)
  have hstep₂ := step_of_decode_ok (s := s₁) (by rw [hpc₁, hprogram₁, hsecond]) (decode_encode hwf)
  refine ⟨s₁, s₂, hstep₁.trans hnext₁, hstep₂.trans hnext₂, ?_, hnext₁, hnext₂, hvalid⟩
  rw [(exec_next_pc_program hnext₂).1, hpc₁]

/-- Settles O8: the line is `LUIui #0` and a reader, which complete; after `copy.u` the register is the operand, whose
halves are those of the constant. -/
theorem macroPairsComplete : Obligations.MacroPairsComplete := by
  intro l u₁ u₂ s hassemble hfirst hsecond
  obtain ⟨m, mk, n, imm, t, htarget, hmk, himms, hreg, -, rfl, rfl, hlow⟩ := pair_of_assembleIsa hassemble
  obtain ⟨s₁, s₂, hstep₁, hstep₂, hpc, hexec₁, hexec₂, hvalid⟩ :=
    luiui_reader_steps (readsBank0_of_i12Named hmk imm t) (wellFormed_of_i12Named hmk imm t) hfirst hsecond
  refine ⟨s₁, s₂, hstep₁, hstep₂, hpc, ?_⟩
  rintro k u rfl
  cases htarget
  cases hmk
  cases himms
  obtain rfl : u = t := BitVec.eq_of_toNat_eq (Option.some.inj hreg)
  obtain ⟨-, -, hmovui⟩ := movuiLoadsConstant
  obtain ⟨s', hnext, hvalue, -⟩ := (hmovui imm u s₁).2 hvalid
  cases hnext.symm.trans hexec₂
  have hk := k.isLt
  apply BitVec.eq_of_toNat_eq
  rw [hvalue, operandNat_after_luiui hexec₁, ← hlow, BitVec.toNat_ofNat]
  omega

end Sys2Proof.Machine
end

section
/-!
Subtraction and comparison (`41_imm24_alu.md` section 4, `43_compare.md`): the difference of words as a number, and the
flags the two instructions share.
-/

namespace Sys2Proof.Machine

open Sys2Proof.Safety

/-- The difference of two words as a number, with `2^24` added on a borrow (R48). -/
theorem word_toNat_sub (a b : Word) :
    (a - b).toNat = if b.toNat ≤ a.toNat then a.toNat - b.toNat else a.toNat + 2 ^ 24 - b.toNat := by
  have ha := a.isLt
  have hb := b.isLt
  rw [BitVec.toNat_sub]
  split <;> omega

/-- A difference is zero exactly for equal words (R52). -/
theorem zeroFlag_sub (a b : Word) : zeroFlag (a - b) = decide (a.toNat = b.toNat) := by
  have ha := a.isLt
  have hb := b.isLt
  rw [zeroFlag_eq_decide, word_toNat_sub, decide_eq_decide]
  split <;> omega

/-- Settles O32: the result is the difference of the words, and the flags are those of the two numbers. -/
theorem subuiSubtractsModulo : Obligations.SubuiSubtractsModulo := by
  refine ⟨isMacroOf_of_isaTarget rfl rfl, encodedI12_of_i12Of (subop := 4#4) rfl, fun imm t s =>
    ⟨exec_of_readsBank0_stale rfl, fun hvalid => ?_⟩⟩
  obtain ⟨hresult, hz, hc, hkept⟩ := writeResult_setC_complete_effect s t (s.readDR t - s.imm24 imm)
    (subCarry Setting.subCarry (s.readDR t) (s.imm24 imm))
  rw [exec_subui]
  refine ⟨_, withImm24_of_valid hvalid imm _, ?_, ?_, ?_, hkept⟩
  · rw [hresult, word_toNat_sub, imm24_toNat_eq_operandNat]
  · rw [hz, ← zeroFlag_eq_decide, zeroFlag_sub, imm24_toNat_eq_operandNat]
  · rw [hc, subCarry_setting, imm24_toNat_eq_operandNat]

/-- Settles O36: the flags are written as `SUBui` writes them, and nothing else is. -/
theorem cmpuiComparesUnsigned : Obligations.CmpuiComparesUnsigned := by
  refine ⟨isMacroOf_of_isaTarget rfl rfl, encodedI12_of_i12Of (subop := 13#4) rfl, fun imm t s =>
    ⟨exec_of_readsBank0_stale rfl, fun hvalid => ?_⟩⟩
  rw [exec_cmpui, exec_subui]
  refine ⟨_, withImm24_of_valid hvalid imm _, ?_, ?_, fun _ => rfl, ⟨rfl, rfl, rfl, rfl, rfl, rfl⟩, rfl,
    _, withImm24_of_valid hvalid imm _, rfl, rfl⟩
  · rw [complete_z, setC_z, setZ_z, zeroFlag_sub, imm24_toNat_eq_operandNat]
  · rw [complete_c, setC_c, subCarry_setting, imm24_toNat_eq_operandNat]

end Sys2Proof.Machine
end

section
/-!
Shifts and rotates (`42_shift_rotate.md`). Their names and words follow from the tables; an unchecked form completes for
every amount with the frame of R54, and for an amount of 1 to 23 the register, `z` and `c` are those of the operation;
what remains is the operation on 24 bits.
-/

namespace Sys2Proof.Machine

open Sys2Proof.Safety

/-! Spelling and word, for every row of the tables. -/

section
variable {m : Mnemonic} {mk : Imm5 → RegNum → Instr}

/-- An isa name that the table sends to an `I5` name is that one uop (R38). -/
theorem isOneUop_of_isaTarget {name : IsaName} (htarget : isaTarget name = (m, false))
    (hnamed : i5Named m = some mk) : IsOneUop name mk := by
  intro amount t
  simp [assembleIsa, expandIsa, htarget, assembleUops, assembleUop_i5_operands hnamed]

/-- A row of the `I5` table has its subop in its word, and the word decodes to it (R30, R33). -/
theorem encodedI5_of_i5Of {subop : BitVec 4} (h : i5Of subop = some mk) : EncodedI5 subop.toNat mk := by
  intro amount t
  have hdecode := decode_encode (wellFormed_of_i5Of h amount t)
  exact ⟨(decode_eq_i5_iff h _ amount t).mp hdecode, hdecode⟩

end

/-! The three ranges of the amount. -/

section
variable (kind : ShiftKind) {amount : Imm5} (t : RegNum) (s : State)

/-- Amount 0 (R55): the registers are kept, `z` is written from `DR[t]`, and `c` is the one value drawn. -/
theorem shiftRotate_zero_effect (hzero : amount.toNat = 0) :
    ∃ s', shiftRotate kind amount t s = .next s' ∧ AllRegsKept s s' ∧ s'.z = decide ((s.readDR t).toNat = 0) ∧
      s'.c = Config.freeBit s.draws ∧ s'.draws = s.draws + 1 ∧ Completed s s' :=
  ⟨_, shiftRotate_of_zero kind t s hzero, fun _ => rfl, zeroFlag_eq_decide _, rfl, rfl, rfl, rfl, rfl, rfl, rfl, rfl⟩

/-- Amounts 1 to 23 (R54): the register, `z` and `c` are those of the operation. -/
theorem shiftRotate_within_effect (hlow : 1 ≤ amount.toNat) (hhigh : amount.toNat ≤ 23) :
    ∃ s', shiftRotate kind amount t s = .next s' ∧ s'.readDR t = shiftResult kind (s.readDR t) amount.toNat ∧
      s'.z = decide ((s'.readDR t).toNat = 0) ∧ s'.c = shiftCarryOut kind (s.readDR t) amount.toNat ∧
      OtherRegsKept t s s' ∧ Completed s s' ∧ NothingDrawn s s' := by
  obtain ⟨hresult, hz, heffect⟩ := writeResult_setC_complete_effect s t (shiftResult kind (s.readDR t) amount.toNat)
    (shiftCarryOut kind (s.readDR t) amount.toNat)
  exact ⟨_, shiftRotate_of_within kind t s (by omega) (by omega), hresult, by rw [hz, hresult], heffect⟩

/-- Amounts 24 to 31 (R56): the register, `z` and `c` are three values drawn in this order. -/
theorem shiftRotate_beyond_effect (hbeyond : 24 ≤ amount.toNat) :
    ∃ s', shiftRotate kind amount t s = .next s' ∧
      s'.readDR t = Config.freeWord s.draws ∧ s'.z = Config.freeBit (s.draws + 1) ∧
      s'.c = Config.freeBit (s.draws + 2) ∧ s'.draws = s.draws + 3 ∧ OtherRegsKept t s s' ∧ Completed s s' :=
  ⟨_, shiftRotate_of_beyond kind t s hbeyond, readDR_writeDR_same s t _, rfl, rfl, rfl,
    fun u hu => readDR_writeDR_other s t u _ hu, rfl, rfl, rfl, rfl, rfl, rfl⟩

/-- Every amount completes with the frame of R54; an amount of 1 to 23 has the effect of the operation. -/
theorem shiftRotate_effect (amount : Imm5) :
    ∃ s', shiftRotate kind amount t s = .next s' ∧ OtherRegsKept t s s' ∧ Completed s s' ∧
      (1 ≤ amount.toNat → amount.toNat ≤ 23 →
        s'.readDR t = shiftResult kind (s.readDR t) amount.toNat ∧ s'.z = decide ((s'.readDR t).toNat = 0) ∧
        s'.c = shiftCarryOut kind (s.readDR t) amount.toNat ∧ NothingDrawn s s') := by
  rcases shiftRotate_cases kind t s amount with ⟨hzero, -⟩ | ⟨hlow, hhigh, -⟩ | ⟨hbeyond, -⟩
  · obtain ⟨s', hnext, hregs, -, -, -, hcompleted⟩ := shiftRotate_zero_effect kind t s hzero
    exact ⟨s', hnext, fun u _ => hregs u, hcompleted, by omega⟩
  · obtain ⟨s', hnext, hresult, hz, hc, hregs, hcompleted, hdrawn⟩ := shiftRotate_within_effect kind t s hlow hhigh
    exact ⟨s', hnext, hregs, hcompleted, fun _ _ => ⟨hresult, hz, hc, hdrawn⟩⟩
  · obtain ⟨s', hnext, -, -, -, -, hregs, hcompleted⟩ := shiftRotate_beyond_effect kind t s hbeyond
    exact ⟨s', hnext, hregs, hcompleted, by omega⟩

/-- The check of the amount (R58, R61, R67): a trap from 24 on, the unchecked form below. -/
theorem checkedShift_range (amount : Imm5) :
    (24 ≤ amount.toNat → checkedShift kind amount t s = .fault (.trap .arithRange s.pc)) ∧
      (amount.toNat ≤ 23 → ∃ s', checkedShift kind amount t s = .next s' ∧ shiftRotate kind amount t s = .next s') := by
  refine ⟨checkedShift_of_beyond kind t s, fun hrange => ?_⟩
  obtain ⟨b, hnext, -⟩ := shiftRotate_completes kind amount t s
  exact ⟨b.complete, by rw [checkedShift_of_range kind t s (by omega), hnext], hnext⟩

end

/-! The operations on 24 bits (R63). -/

section
variable (a : Word) {n : Nat}

theorem toNat_shiftResult_left (n : Nat) : (shiftResult .left a n).toNat = a.toNat * 2 ^ n % 2 ^ 24 := by
  rw [shiftResult, BitVec.toNat_shiftLeft, Nat.shiftLeft_eq]

theorem toNat_shiftResult_right (n : Nat) : (shiftResult .right a n).toNat = a.toNat / 2 ^ n := by
  rw [shiftResult, BitVec.toNat_ushiftRight, Nat.shiftRight_eq_div_pow]

theorem toNat_rotl24 (n : Nat) : (rotl24 a n).toNat = (a.toNat * 2 ^ n % 2 ^ 24 ||| a.toNat / 2 ^ (24 - n)) := by
  rw [rotl24, BitVec.toNat_or, BitVec.toNat_shiftLeft, BitVec.toNat_ushiftRight, Nat.shiftLeft_eq,
    Nat.shiftRight_eq_div_pow]

theorem toNat_rotr24 (n : Nat) : (rotr24 a n).toNat = (a.toNat / 2 ^ n ||| a.toNat * 2 ^ (24 - n) % 2 ^ 24) := by
  rw [rotr24, BitVec.toNat_or, BitVec.toNat_shiftLeft, BitVec.toNat_ushiftRight, Nat.shiftLeft_eq,
    Nat.shiftRight_eq_div_pow]

/-- A right rotation is a left rotation by the rest of 24 (R62). -/
theorem rotr24_eq_rotl24 (hhigh : n ≤ 24) : rotr24 a n = rotl24 a (24 - n) := by
  rw [rotr24, rotl24, Nat.sub_sub_self hhigh, BitVec.or_comm]

/-- The bits of a left rotation: the low ones come from the top of the word, the others move up. -/
theorem getLsbD_rotl24 (hhigh : n ≤ 24) {k : Nat} (hk : k < 24) :
    (rotl24 a n).getLsbD k = if k < n then a.getLsbD (24 - n + k) else a.getLsbD (k - n) := by
  rw [rotl24, BitVec.getLsbD_or, BitVec.getLsbD_shiftLeft, BitVec.getLsbD_ushiftRight]
  split
  · simp [*]
  · have htop : a.getLsbD (24 - n + k) = false := BitVec.getLsbD_of_ge _ _ (by omega)
    simp [*]

/-- Two left rotations that go once around give the word back. -/
theorem rotl24_rotl24 (hhigh : n ≤ 24) : rotl24 (rotl24 a n) (24 - n) = a := by
  apply BitVec.eq_of_getLsbD_eq
  intro k hk
  rw [getLsbD_rotl24 _ (Nat.sub_le 24 n) hk]
  split
  · rw [getLsbD_rotl24 a hhigh (by omega), if_neg (by omega)]
    congr 1
    omega
  · rw [getLsbD_rotl24 a hhigh (by omega), if_pos (by omega)]
    congr 1
    omega

/-- A right rotation undoes the left rotation by the same amount (R63). -/
theorem rotr24_rotl24 (hhigh : n ≤ 24) : rotr24 (rotl24 a n) n = a := by
  rw [rotr24_eq_rotl24 _ hhigh, rotl24_rotl24 a hhigh]

/-- A rotation is zero for the zero word alone (R59, R62). -/
theorem rotl24_toNat_eq_zero_iff (hhigh : n ≤ 24) : (rotl24 a n).toNat = 0 ↔ a.toNat = 0 := by
  constructor
  · intro h
    have hzero : rotl24 a n = 0 := BitVec.eq_of_toNat_eq h
    rw [← rotl24_rotl24 a hhigh, hzero]
    simp [rotl24]
  · intro h
    simp [toNat_rotl24, h]

end

/-! The six instructions. -/

/-- Settles O37: the shift of the word is that of the number, modulo `2^24`. -/
theorem shluiShiftsLeft : Obligations.ShluiShiftsLeft := by
  refine ⟨isOneUop_of_isaTarget rfl rfl, encodedI5_of_i5Of (subop := 9#4) rfl, fun amount t s => ?_⟩
  obtain ⟨s', hnext, hregs, hcompleted, heffect⟩ := shiftRotate_effect .left t s amount
  refine ⟨s', hnext, hregs, hcompleted, fun hlow hhigh => ?_⟩
  obtain ⟨hresult, hz, hc, hdrawn⟩ := heffect hlow hhigh
  exact ⟨by rw [hresult, toNat_shiftResult_left], hz, hc, hdrawn⟩

/-- Settles O38. -/
theorem shluivChecksRange : Obligations.ShluivChecksRange :=
  ⟨isOneUop_of_isaTarget rfl rfl, encodedI5_of_i5Of (subop := 14#4) rfl,
    fun amount t s => checkedShift_range .left t s amount⟩

/-- Settles O39: the result is zero with the register, and its lowest bit is the last to leave the top. -/
theorem roluiRotatesLeft : Obligations.RoluiRotatesLeft := by
  refine ⟨isOneUop_of_isaTarget rfl rfl, encodedI5_of_i5Of (subop := 10#4) rfl, fun amount t s => ?_⟩
  obtain ⟨s', hnext, hregs, hcompleted, heffect⟩ := shiftRotate_effect .rotLeft t s amount
  refine ⟨s', hnext, hregs, hcompleted, fun hlow hhigh => ?_⟩
  obtain ⟨hresult, hz, hc, hdrawn⟩ := heffect hlow hhigh
  replace hresult : s'.readDR t = rotl24 (s.readDR t) amount.toNat := hresult
  replace hc : s'.c = (s.readDR t).getLsbD (24 - amount.toNat) := hc
  refine ⟨by rw [hresult, toNat_rotl24], hz, ?_, ?_, hc, hdrawn⟩
  · rw [hz, hresult, decide_eq_decide]
    exact rotl24_toNat_eq_zero_iff _ (by omega)
  · rw [hc, hresult, getLsbD_rotl24 _ (by omega) (by omega), if_pos (by omega), Nat.add_zero]

/-- Settles O40: the shift of the word is the quotient of the number. -/
theorem shruiShiftsRight : Obligations.ShruiShiftsRight := by
  refine ⟨isOneUop_of_isaTarget rfl rfl, encodedI5_of_i5Of (subop := 11#4) rfl, fun amount t s => ?_⟩
  obtain ⟨s', hnext, hregs, hcompleted, heffect⟩ := shiftRotate_effect .right t s amount
  refine ⟨s', hnext, hregs, hcompleted, fun hlow hhigh => ?_⟩
  obtain ⟨hresult, hz, hc, hdrawn⟩ := heffect hlow hhigh
  exact ⟨by rw [hresult, toNat_shiftResult_right], hz, hc, hdrawn⟩

/-- Settles O41. -/
theorem shruivChecksRange : Obligations.ShruivChecksRange :=
  ⟨isOneUop_of_isaTarget rfl rfl, encodedI5_of_i5Of (subop := 15#4) rfl,
    fun amount t s => checkedShift_range .right t s amount⟩

/-- Settles O42: as for O39, by the left rotation that the right one is; the highest bit is the last to leave the
bottom. -/
theorem roruiRotatesRight : Obligations.RoruiRotatesRight := by
  refine ⟨isOneUop_of_isaTarget rfl rfl, encodedI5_of_i5Of (subop := 12#4) rfl, fun amount t s => ?_⟩
  obtain ⟨s', hnext, hregs, hcompleted, heffect⟩ := shiftRotate_effect .rotRight t s amount
  refine ⟨s', hnext, hregs, hcompleted, fun hlow hhigh => ?_⟩
  obtain ⟨hresult, hz, hc, hdrawn⟩ := heffect hlow hhigh
  replace hresult : s'.readDR t = rotr24 (s.readDR t) amount.toNat := hresult
  replace hc : s'.c = (s.readDR t).getLsbD (amount.toNat - 1) := hc
  have hleft : s'.readDR t = rotl24 (s.readDR t) (24 - amount.toNat) := by
    rw [hresult, rotr24_eq_rotl24 _ (by omega)]
  refine ⟨by rw [hresult, toNat_rotr24], hleft, hz, ?_, ?_, hc, hdrawn⟩
  · rw [hz, hleft, decide_eq_decide]
    exact rotl24_toNat_eq_zero_iff _ (Nat.sub_le 24 _)
  · rw [hc, hleft, getLsbD_rotl24 _ (Nat.sub_le 24 _) (by omega), if_neg (by omega)]
    congr 1
    omega

/-- Settles O43: the checked forms pass the check at amount 0. -/
theorem shiftByZeroKeepsRegister : Obligations.ShiftByZeroKeepsRegister := by
  have hunchecked (kind : ShiftKind) (t : RegNum) (s : State) :=
    shiftRotate_zero_effect kind (amount := 0#5) t s rfl
  have hchecked (kind : ShiftKind) (t : RegNum) (s : State) :
      checkedShift kind 0#5 t s = shiftRotate kind 0#5 t s := checkedShift_of_range kind t s (by decide)
  simp only [Obligations.ShiftByZeroKeepsRegister, List.forall_mem_cons, exec_shlui, exec_shluiv, exec_rolui,
    exec_shrui, exec_shruiv, exec_rorui, hchecked]
  exact ⟨hunchecked .left, hunchecked .left, hunchecked .rotLeft, hunchecked .right, hunchecked .right,
    hunchecked .rotRight, List.forall_mem_nil _⟩

/-- Settles O44. -/
theorem amountsBeyondAreDrawn : Obligations.AmountsBeyondAreDrawn := by
  simp only [Obligations.AmountsBeyondAreDrawn, List.forall_mem_cons]
  exact ⟨fun _ => shiftRotate_beyond_effect .left, fun _ => shiftRotate_beyond_effect .rotLeft,
    fun _ => shiftRotate_beyond_effect .right, fun _ => shiftRotate_beyond_effect .rotRight, List.forall_mem_nil _⟩

/-- Settles O45: both rotations keep the other registers, and the right one undoes the left one. -/
theorem rotateLeftThenRightRestores : Obligations.RotateLeftThenRightRestores := by
  intro amount t s hlow hhigh
  obtain ⟨s₁, hnext₁, hresult₁, -, -, hregs₁, -⟩ := shiftRotate_within_effect .rotLeft t s hlow hhigh
  obtain ⟨s₂, hnext₂, hresult₂, -, -, hregs₂, -⟩ := shiftRotate_within_effect .rotRight t s₁ hlow hhigh
  refine ⟨s₁, s₂, hnext₁, hnext₂, fun u => ?_⟩
  by_cases hu : u = t
  · rw [hu, hresult₂, hresult₁]
    exact rotr24_rotl24 _ (by omega)
  · rw [hregs₂ u hu, hregs₁ u hu]

end Sys2Proof.Machine
end
